-- ==== Sys2Proof/Word.lean ====
section
/-! DEFINITION. The words of the noriv voice engine: the value type `V` of every non-integer register and
payload, and the bit patterns that cross its ports (spec/00_scope.md R8, R9; spec/20_memory.md R67). -/

namespace Sys2Proof

/-- The carrier of `V`, the value type of every non-integer register and payload (R8): a value of a number
system is held as the rational number it stands for. Which rationals are values, and what the operations do,
is the parameter `NUM` (`Sys2Proof.NumOps`, log 1); in the reference profile `EXACT` it is every rational (R9). -/
abbrev V := Rat

/-- A 64-bit command word, the unit of the event channel (R60, R91). -/
abbrev CmdWord := BitVec 64

/-- A byte, used only where a platform carries a command word or a MIDI message as bytes (R69, R76). -/
abbrev Byte := BitVec 8

/-- A MIDI message `s ++ d1 ++ d2`, status byte first (R76, R99). -/
abbrev MidiMsg := BitVec 24

end Sys2Proof
end

