-- ==== Sys2Proof/Config.lean ====
section
/-! DEFINITION. The parameters the spec leaves to the platform or to the model's user (spec/00_scope.md R5), the number
system `NUM` among them (R8), and the free values: the sine away from its pinned points (R10), and the operations of
the number systems that are not named. -/

namespace Sys2Proof

/-- An instance of `NUM` (R8): which rationals are its values, its operations and its constants. Order and
equality are those of the rationals its values stand for; `0` and `1` are exact (N2). Each operation is a
function of its operands alone, which is N5; the other laws are `NumOps.Lawful`. -/
structure NumOps where
  /-- The rationals that are values of this system. -/
  mem : V → Bool
  add : V → V → V
  sub : V → V → V
  mul : V → V → V
  div : V → V → V
  /-- `mod1` (R11). -/
  mod1 : V → V
  /-- `SIN` (R10). -/
  sin : V → V
  /-- `wire` (R12), of the number `signed(b)/65536` that the pattern `b` stands for. -/
  ofWire : V → V
  /-- `ofInt` of a 7-bit integer (R8, R95). -/
  ofInt : BitVec 7 → V
  /-- The constant `2`. -/
  two : V
  /-- The constant `0.001`, `MIN_TIME`. -/
  minTime : V
  /-- The constant `0.1`, `ATTACK_RESET` and `DECAY_RESET`. -/
  tenth : V
  /-- The constant `0.2`, `MIX_GAIN`. -/
  mixGain : V
  /-- The constant `0.3`, `RELEASE_RESET`. -/
  releaseReset : V
  /-- The constant `0.7`, `SUSTAIN_RESET`. -/
  sustainReset : V
  /-- The constant `20`, `MODRANGE_RESET`. -/
  modRangeReset : V
  /-- The constant `127`, `CC_SCALE`. -/
  ccScale : V
  deriving Inhabited

/-- The argument `NUM` as plain data: the reference profile `EXACT` (R9), or one of the systems the spec
leaves open, whose operations are free values (log 1). -/
inductive NumSystem where
  | exact
  | free (k : Nat)
  deriving DecidableEq, Repr

/-- The parameters of R5 that a model takes as arguments. The machine holds one such record in its
state and no step writes it (log 3). `FS` is not here: it is the register `State.fs` (R35). -/
structure Config where
  /-- `NUM` (R5, R8, U14): the number system. -/
  num : NumSystem
  /-- `CH_CAP` (R63): the capacity of the event channel, `none` for the unbounded channel. -/
  chCap : Option Nat
  /-- `N_PROD` (R13): the number of producers. -/
  nProd : Nat
  /-- `P_WIRE_ADSR` (D8): whether `PARAM_CHANGE` of Attack, Decay, Sustain, Release is applied. -/
  wireAdsr : Bool
  /-- `P_OFF_EARLY_EXIT` (D7): whether a render call stops when the envelope reaches `Off`. -/
  offEarlyExit : Bool
  /-- `MODWHEEL_RESET` (D14, U16). -/
  modWheelReset : V
  /-- `LFO_FREQ_RESET` (D15, U6). -/
  lfoFreqReset : V
  deriving DecidableEq, Repr

/-- The default of every parameter of R5, with the reference profile for `NUM` (log 1); `CH_CAP = ∞` and
`N_PROD = 2` are the model's own (DESIGN CHOICE, log 3), the spec leaves both open. -/
def Config.default : Config where
  num := .exact
  chCap := none
  nProd := 2
  wireAdsr := false
  offEarlyExit := false
  modWheelReset := 0
  lfoFreqReset := 157 / 50

/-- The operations of the number systems that the spec does not name: FREE VALUES (log 1). They have no
body, so nothing can be proved of them; `NumOps.toLawful` brings them within the laws of R8. A claim about one
given instance takes `Config.freeNum k = N` as its hypothesis. -/
opaque Config.freeNum : Nat → NumOps

/-- The values of the LFO sine in `EXACT` at phases where R10 does not pin it: a FREE VALUE (log 2). It has no
body, so nothing can be proved of it; `sinq` brings it into `[−1, 1]`. -/
opaque Config.sinFree : V → V

end Sys2Proof
end

