-- ==== Sys2Proof/Syntax.lean ====
section
/-! DEFINITION. The instructions: one constructor per row of spec/opcode_table.json (spec/30_encoding.md R90,
R100), and the encoded forms in which they arrive (R91). -/

namespace Sys2Proof

/-- The 16 operations of R100, in its order. A numeric operand is the number `signed(V)/65536` that the payload
stands for (R12, R94), which the number system makes one of its values when the command is executed (log 13);
which operands the encoding can carry is `Instr.wellFormed`. -/
inductive Instr where
  /-- `NOP` (R170); every reserved command word decodes to it too (R96). -/
  | nop
  /-- `NOTE_ON note, freq` (R161). -/
  | noteOn (note : BitVec 7) (freq : V)
  /-- `NOTE_OFF note` (R162). -/
  | noteOff (note : BitVec 7)
  /-- `PARAM_CHANGE.ATTACK value`, seconds (R166). -/
  | paramAttack (value : V)
  /-- `PARAM_CHANGE.DECAY value`, seconds (R167). -/
  | paramDecay (value : V)
  /-- `PARAM_CHANGE.SUSTAIN value`, level (R168). -/
  | paramSustain (value : V)
  /-- `PARAM_CHANGE.RELEASE value`, seconds (R169). -/
  | paramRelease (value : V)
  /-- `PARAM_CHANGE.MODRANGE value`, Hz (R164). -/
  | paramModRange (value : V)
  /-- `PARAM_CHANGE.LFOFREQ value`, Hz (R165). -/
  | paramLfoFreq (value : V)
  /-- `CONTROL_CHANGE ctrl, value` (R163). -/
  | controlChange (ctrl value : BitVec 7)
  /-- `TICK` (R190). -/
  | tick
  /-- `DRAIN` (R191). -/
  | drain
  /-- `RESET fs` (R194). -/
  | reset (fs : V)
  /-- `MIDI.NOTE_OFF ch, note, vel` (R212). -/
  | midiNoteOff (ch : BitVec 4) (note vel : BitVec 7)
  /-- `MIDI.NOTE_ON ch, note, vel` (R211). -/
  | midiNoteOn (ch : BitVec 4) (note vel : BitVec 7)
  /-- `MIDI.CC ch, ctrl, value` (R213). -/
  | midiCc (ch : BitVec 4) (ctrl value : BitVec 7)
  deriving DecidableEq, Repr

/-- An encoded operation in one of the formats of R91: a command word, a render-port request, a MIDI
message, or a request on the reset port, which has an operand and no opcode bits. -/
inductive PortWord where
  | cw (w : CmdWord)
  | rq (r : BitVec 1)
  | midi3 (m : MidiMsg)
  | resetPort (fs : V)
  deriving DecidableEq, Repr

end Sys2Proof
end

