-- ==== Sys2Proof/WellFormed.lean ====
section
/-! DEFINITION. Which instructions an encoding can carry, and which parameters the spec admits. -/

namespace Sys2Proof

/-- The payload grid of R12: the multiples of `1/65536` in `[−32768, 32768)`. -/
def onGrid (f : V) : Bool :=
  (f * 65536).den == 1 && decide (-32768 ≤ f) && decide (f < 32768)

/-- The operands the encodings admit: a numeric payload lies on the Q16.16 grid (R12, R97), and the
operand of `RESET` is positive (R194, R241). The integer operands are bounded by their types (R95). -/
def Instr.wellFormed : Instr → Bool
  | .nop => true
  | .noteOn _ freq => onGrid freq
  | .noteOff _ => true
  | .paramAttack value => onGrid value
  | .paramDecay value => onGrid value
  | .paramSustain value => onGrid value
  | .paramRelease value => onGrid value
  | .paramModRange value => onGrid value
  | .paramLfoFreq value => onGrid value
  | .controlChange _ _ => true
  | .tick => true
  | .drain => true
  | .reset fs => decide (0 < fs)
  | .midiNoteOff _ _ _ => true
  | .midiNoteOn _ _ _ => true
  | .midiCc _ _ _ => true

/-- The parameter values R5 admits: a positive capacity or ∞ (R63), at least one producer (R13),
`MODWHEEL_RESET` in `[0, 1]` (U16), a positive `LFO_FREQ_RESET` (R34). -/
def Config.wellFormed (c : Config) : Bool :=
  decide (c.chCap ≠ some 0) && decide (1 ≤ c.nProd) && decide (0 ≤ c.modWheelReset) &&
    decide (c.modWheelReset ≤ 1) && decide (0 < c.lfoFreqReset)

end Sys2Proof
end

