-- ==== Sys2Proof/Decode.lean ====
section
/-! DEFINITION. The decoder, total on every pattern, and after it the encoder, both written from
spec/30_encoding.md (R91 to R99) and spec/20_memory.md (R69, R76). -/

namespace Sys2Proof

/-! ## Decoding -/

/-- Why a pattern yields no instruction. Only MIDI messages (R214) and byte strings can be refused:
every command word and every request decodes (R97, R98). -/
inductive DecodeError where
  /-- `d1` or `d2` of a MIDI message has bit 7 set (R214). -/
  | dataByteHigh
  /-- The status nibble is none of `0x8`, `0x9`, `0xB` (R214). -/
  | unmappedStatus
  /-- A byte string whose length is that of no byte-serialised format (R69, R76). -/
  | badLength
  deriving DecidableEq, Repr

/-- The number a payload stands for: `signed(b) / 65536` (R12, R94), which in `EXACT` is `wire(b)` itself. -/
def wire (b : BitVec 32) : V := (b.toInt : V) / 65536

/-- `param(a)` of R97 with its payload, for `a ≤ 5` (R93). -/
def paramInstr (a : BitVec 8) (value : V) : Instr :=
  match a.toNat with
  | 0 => .paramAttack value
  | 1 => .paramDecay value
  | 2 => .paramSustain value
  | 3 => .paramRelease value
  | 4 => .paramModRange value
  | _ => .paramLfoFreq value

/-- `decodeCW` (R97): total; every reserved word (R96) decodes to `nop`. -/
def decodeCW (w : CmdWord) : Instr :=
  let op := w.extractLsb' 56 8
  let a := w.extractLsb' 48 8
  let b := w.extractLsb' 40 8
  let z := w.extractLsb' 32 8
  let v := w.extractLsb' 0 32
  if z ≠ 0 then .nop
  else if op = 0x01 ∧ a.msb = false ∧ b = 0 then .noteOn (a.extractLsb' 0 7) (wire v)
  else if op = 0x02 ∧ a.msb = false ∧ b = 0 ∧ v = 0 then .noteOff (a.extractLsb' 0 7)
  else if op = 0x03 ∧ a ≤ 0x05 ∧ b = 0 then paramInstr a (wire v)
  else if op = 0x04 ∧ a.msb = false ∧ b.msb = false ∧ v = 0 then
    .controlChange (a.extractLsb' 0 7) (b.extractLsb' 0 7)
  else .nop

/-- The render-port request (R98): 0 is `TICK`, 1 is `DRAIN`. -/
def decodeRQ (r : BitVec 1) : Instr := if r = 0 then .tick else .drain

/-- The MIDI front end's reading of a message (R99, R210, R214). -/
def decodeMidi (m : MidiMsg) : Except DecodeError Instr :=
  let status := m.extractLsb' 20 4
  let ch := m.extractLsb' 16 4
  let d1 := m.extractLsb' 8 8
  let d2 := m.extractLsb' 0 8
  if d1.msb = true ∨ d2.msb = true then .error .dataByteHigh
  else if status = 0x9 then .ok (.midiNoteOn ch (d1.extractLsb' 0 7) (d2.extractLsb' 0 7))
  else if status = 0x8 then .ok (.midiNoteOff ch (d1.extractLsb' 0 7) (d2.extractLsb' 0 7))
  else if status = 0xB then .ok (.midiCc ch (d1.extractLsb' 0 7) (d2.extractLsb' 0 7))
  else .error .unmappedStatus

/-- The decoder over all four forms of R91. -/
def decode : PortWord → Except DecodeError Instr
  | .cw w => .ok (decodeCW w)
  | .rq r => .ok (decodeRQ r)
  | .midi3 m => decodeMidi m
  | .resetPort fs => .ok (.reset fs)

/-- A command word from its eight bytes, `OP` first (R69). -/
def cwOfBytes (b0 b1 b2 b3 b4 b5 b6 b7 : Byte) : CmdWord :=
  b0 ++ b1 ++ b2 ++ b3 ++ b4 ++ b5 ++ b6 ++ b7

/-- A MIDI message from its three bytes, status first (R76). -/
def midiOfBytes (s d1 d2 : Byte) : MidiMsg := s ++ d1 ++ d2

/-- Decoding of a byte string: eight bytes are a command word (R69), three a MIDI message (R76). The
render-port request and the reset port have no byte form in the spec. -/
def decodeBytes : List Byte → Except DecodeError Instr
  | [b0, b1, b2, b3, b4, b5, b6, b7] => .ok (decodeCW (cwOfBytes b0 b1 b2 b3 b4 b5 b6 b7))
  | [s, d1, d2] => decodeMidi (midiOfBytes s d1 d2)
  | _ => .error .badLength

/-! ## Encoding -/

/-- The bit pattern of a payload on the grid, the inverse of `wire` there (R12). -/
def unwire (f : V) : BitVec 32 := BitVec.ofInt 32 (f * 65536).floor

/-- A command word from its five fields (R91). -/
def cwWord (op a b z : BitVec 8) (v : BitVec 32) : CmdWord := op ++ a ++ b ++ z ++ v

/-- A seven-bit operand in its eight-bit field, bit 7 zero (R95). -/
def byte7 (n : BitVec 7) : BitVec 8 := 0#1 ++ n

/-- The word of `NOTE_ON` with note `n` and payload pattern `v` (R92). -/
def noteOnWord (n : BitVec 7) (v : BitVec 32) : CmdWord := cwWord 0x01 (byte7 n) 0 0 v

/-- The word of `NOTE_OFF` (R92). -/
def noteOffWord (n : BitVec 7) : CmdWord := cwWord 0x02 (byte7 n) 0 0 0

/-- The word of `CONTROL_CHANGE` (R92). -/
def controlChangeWord (c v : BitVec 7) : CmdWord := cwWord 0x04 (byte7 c) (byte7 v) 0 0

/-- The word of `PARAM_CHANGE` with parameter id `a` (R92, R93). -/
def paramWord (a : BitVec 8) (value : V) : CmdWord := cwWord 0x03 a 0 0 (unwire value)

/-- A MIDI message from its fields, both data bytes with bit 7 zero (R99). -/
def midiWord (status ch : BitVec 4) (d1 d2 : BitVec 7) : MidiMsg := status ++ ch ++ byte7 d1 ++ byte7 d2

/-- The encoder (R91 to R93, R97 `encodeCW`, R98, R99). -/
def encode : Instr → PortWord
  | .nop => .cw (cwWord 0 0 0 0 0)
  | .noteOn n f => .cw (noteOnWord n (unwire f))
  | .noteOff n => .cw (noteOffWord n)
  | .paramAttack v => .cw (paramWord 0 v)
  | .paramDecay v => .cw (paramWord 1 v)
  | .paramSustain v => .cw (paramWord 2 v)
  | .paramRelease v => .cw (paramWord 3 v)
  | .paramModRange v => .cw (paramWord 4 v)
  | .paramLfoFreq v => .cw (paramWord 5 v)
  | .controlChange c v => .cw (controlChangeWord c v)
  | .tick => .rq 0
  | .drain => .rq 1
  | .reset fs => .resetPort fs
  | .midiNoteOff ch n vel => .midi3 (midiWord 0x8 ch n vel)
  | .midiNoteOn ch n vel => .midi3 (midiWord 0x9 ch n vel)
  | .midiCc ch c v => .midi3 (midiWord 0xB ch c v)

/-- The eight bytes of a command word, `OP` first (R69). -/
def cwBytes (w : CmdWord) : List Byte :=
  [w.extractLsb' 56 8, w.extractLsb' 48 8, w.extractLsb' 40 8, w.extractLsb' 32 8,
   w.extractLsb' 24 8, w.extractLsb' 16 8, w.extractLsb' 8 8, w.extractLsb' 0 8]

/-! ## The opcode table -/

/-- A row of R97's table: a word `w` selects it when `w AND mask = pattern`. -/
structure CwRow where
  mnemonic : String
  mask : CmdWord
  pattern : CmdWord
  deriving DecidableEq, Repr

/-- `w` selects the row (R97). -/
def CwRow.selects (r : CwRow) (w : CmdWord) : Bool := w &&& r.mask == r.pattern

/-- The ten command-word rows, as R97 and spec/opcode_table.json give them. -/
def cwRows : List CwRow :=
  [⟨"NOP", 0xFFFFFFFFFFFFFFFF, 0x0000000000000000⟩,
   ⟨"NOTE_ON", 0xFF80FFFF00000000, 0x0100000000000000⟩,
   ⟨"NOTE_OFF", 0xFF80FFFFFFFFFFFF, 0x0200000000000000⟩,
   ⟨"PARAM_CHANGE.ATTACK", 0xFFFFFFFF00000000, 0x0300000000000000⟩,
   ⟨"PARAM_CHANGE.DECAY", 0xFFFFFFFF00000000, 0x0301000000000000⟩,
   ⟨"PARAM_CHANGE.SUSTAIN", 0xFFFFFFFF00000000, 0x0302000000000000⟩,
   ⟨"PARAM_CHANGE.RELEASE", 0xFFFFFFFF00000000, 0x0303000000000000⟩,
   ⟨"PARAM_CHANGE.MODRANGE", 0xFFFFFFFF00000000, 0x0304000000000000⟩,
   ⟨"PARAM_CHANGE.LFOFREQ", 0xFFFFFFFF00000000, 0x0305000000000000⟩,
   ⟨"CONTROL_CHANGE", 0xFF8080FFFFFFFFFF, 0x0400000000000000⟩]

/-- A row of R99's table of MIDI forms. -/
structure MidiRow where
  mnemonic : String
  mask : MidiMsg
  pattern : MidiMsg
  deriving DecidableEq, Repr

/-- `m` selects the row (R99). -/
def MidiRow.selects (r : MidiRow) (m : MidiMsg) : Bool := m &&& r.mask == r.pattern

/-- The three MIDI rows of R99. -/
def midiRows : List MidiRow :=
  [⟨"MIDI.NOTE_OFF", 0xF08080, 0x800000⟩,
   ⟨"MIDI.NOTE_ON", 0xF08080, 0x900000⟩,
   ⟨"MIDI.CC", 0xF08080, 0xB00000⟩]

/-- The row name of an instruction in R100. -/
def Instr.mnemonic : Instr → String
  | .nop => "NOP"
  | .noteOn _ _ => "NOTE_ON"
  | .noteOff _ => "NOTE_OFF"
  | .paramAttack _ => "PARAM_CHANGE.ATTACK"
  | .paramDecay _ => "PARAM_CHANGE.DECAY"
  | .paramSustain _ => "PARAM_CHANGE.SUSTAIN"
  | .paramRelease _ => "PARAM_CHANGE.RELEASE"
  | .paramModRange _ => "PARAM_CHANGE.MODRANGE"
  | .paramLfoFreq _ => "PARAM_CHANGE.LFOFREQ"
  | .controlChange _ _ => "CONTROL_CHANGE"
  | .tick => "TICK"
  | .drain => "DRAIN"
  | .reset _ => "RESET"
  | .midiNoteOff _ _ _ => "MIDI.NOTE_OFF"
  | .midiNoteOn _ _ _ => "MIDI.NOTE_ON"
  | .midiCc _ _ _ => "MIDI.CC"

/-- The instruction the decoder reads from a row's bits, numbered as spec/opcode_table.json numbers
them: 64 bits are a command word, up to 8 bits a render-port request (bit 0; the rest zero), 24 bits a
MIDI message. The `RESET` row has no bits at all; with 0 bits `w` stands for its operand in Hz (log 14). -/
def decodeTableWord (nbits w : Nat) : Option Instr :=
  if nbits = 64 then some (decodeCW (BitVec.ofNat 64 w))
  else if nbits = 24 then (decodeMidi (BitVec.ofNat 24 w)).toOption
  else if nbits = 0 then some (.reset (w : V))
  else if nbits ≤ 8 ∧ w < 2 then some (decodeRQ (BitVec.ofNat 1 w))
  else none

end Sys2Proof
end

