-- ==== Sys2Proof/Machine/State.lean ====
section
/-! DEFINITION. The state of the block as plain data (spec/10_state.md), the agents' schedule, and the reasons a
step may not answer a next state. -/

namespace Sys2Proof.Machine

/-- The five values of `x[i].state` (R26). The codes 5, 6, 7 do not exist in it (U13). -/
inductive EnvState where
  | off
  | attack
  | decay
  | sustain
  | release
  deriving DecidableEq, Repr

/-- The 13 registers of one voice (R21 to R34), in the table's order. -/
structure Voice where
  note : BitVec 7
  base : V
  phase : V
  lfoPhase : V
  state : EnvState
  amp : V
  attackRate : V
  decayRate : V
  releaseRate : V
  sustain : V
  modWheel : V
  modRange : V
  lfoFreq : V
  deriving DecidableEq, Repr

/-- The pool: exactly 8 voices, in pool iteration order (R21, R72). -/
structure Pool where
  v0 : Voice
  v1 : Voice
  v2 : Voice
  v3 : Voice
  v4 : Voice
  v5 : Voice
  v6 : Voice
  v7 : Voice
  deriving DecidableEq, Repr

/-- A slot index `0..7`, this spec's name for a slot (R21). -/
abbrev VoiceIx := Fin 8

/-- What `ChPush` answers to its caller (R61). -/
inductive PushResult where
  | ok
  | full
  deriving DecidableEq, Repr

/-- One action of an agent (R13, R14). The list of future actions in `State.inputs` is how the outside
world, which the block does not control, decides who moves next (log 6). -/
inductive Input where
  /-- Producer `p` calls `ChPush(p, w)` (R61). -/
  | push (p : Nat) (w : CmdWord)
  /-- The MIDI front end of producer `p` receives a message (R210). -/
  | midi (p : Nat) (m : MidiMsg)
  /-- The driver requests `TICK` or `DRAIN` on the render port (R98). -/
  | request (rq : BitVec 1)
  /-- The driver requests `RESET fs` on the reset port (R194). -/
  | reset (fs : V)
  /-- The engine takes its next pop step of the drain in progress (R191). -/
  | engine
  deriving DecidableEq, Repr

/-- The faults of the machine: none. "The block raises no synchronous exception, in any state, for any
input" (R230), and nothing in it is treated as a fault (spec/93_implementation_defined.md). -/
inductive Fault
  deriving DecidableEq, Repr

/-- Why a step is refused. -/
inductive Refusal where
  /-- Raised by `exec` for an instruction without a meaning; no arm raises it. Safe. -/
  | notModelled (mnemonic : String)
  /-- Raised by `RESET fs` with `fs ≤ 0`: "not a launch of the model" (R241, U3; log 11). Safe. -/
  | sampleRateNotPositive
  /-- Raised by `RESET fs` when `fs`, `MODWHEEL_RESET` or `LFO_FREQ_RESET` is no value of the machine's number
  system: a "value `NUM` cannot represent" (R241; log 11). Never in `EXACT`. Safe. -/
  | notRepresentable
  /-- Raised by `step` for an action of a producer `p ≥ N_PROD`, which is no agent of the machine
  (R13; log 10). Safe. -/
  | noSuchProducer
  deriving DecidableEq, Repr

/-- The whole state. `voices`, `fs` and `chan` are the spec's (R20); `draining` is the position in the
`DRAIN` loop (R191, log 7); `cfg` holds the parameters of R5 (log 3); the last five are the model's own
record of the agents around the block (logs 6, 9, 10), which no rule of the block reads back. -/
structure State where
  /-- The voice register file (R21). -/
  voices : Pool
  /-- `FS` (R35). -/
  fs : V
  /-- The event channel's contents `Q`, oldest word first (R42). -/
  chan : List CmdWord
  /-- A `DRAIN` has been requested and its terminating pop has not yet happened (R191). -/
  draining : Bool
  /-- The parameters (R5). -/
  cfg : Config
  /-- The agents' future actions, oldest first (R13, R65). -/
  inputs : List Input
  /-- The actions that come after those, round and round for ever (R191 corner (c), R241; log 6). With none,
  the agents' schedule is finite. -/
  repeats : List Input
  /-- The producer whose front end runs: the label `p` of `ChPush(p, w)` (R61, R239). -/
  producer : Nat
  /-- The results returned to producers, newest first (R232). -/
  results : List (Nat × PushResult)
  /-- The samples delivered on the render port, newest first (R43). -/
  samples : List V
  deriving DecidableEq, Repr

/-- A voice after `RESET 44100` with the default parameters, as R45 tabulates it. -/
def Voice.reset : Voice where
  note := 0
  base := 0
  phase := 0
  lfoPhase := 0
  state := .off
  amp := 0
  attackRate := 1 / 4410
  decayRate := 1 / 4410
  releaseRate := 1 / 13230
  sustain := 7 / 10
  modWheel := 0
  modRange := 20
  lfoFreq := 157 / 50

/-- The machine right after reset (R45). The sample rate, which the spec leaves to the operand of
`RESET`, is 44100 Hz here (DESIGN CHOICE, log 4); nothing is scheduled (log 6). -/
def State.reset : State where
  voices := ⟨.reset, .reset, .reset, .reset, .reset, .reset, .reset, .reset⟩
  fs := 44100
  chan := []
  draining := false
  cfg := .default
  inputs := []
  repeats := []
  producer := 0
  results := []
  samples := []

end Sys2Proof.Machine
end

