-- ==== Sys2Proof/Machine/Ops.lean ====
section
/-! DEFINITION. The named operations over the pool and the channel (spec/00_scope.md R7; spec/20_memory.md R61, R62).
There is no operation that takes an exception or returns from one: the block has neither (R230, R235, R236). -/

namespace Sys2Proof.Machine

/-! ## The pool -/

/-- `x[i]` (R7). -/
def Pool.get (p : Pool) (i : VoiceIx) : Voice :=
  match i.val with
  | 0 => p.v0
  | 1 => p.v1
  | 2 => p.v2
  | 3 => p.v3
  | 4 => p.v4
  | 5 => p.v5
  | 6 => p.v6
  | _ => p.v7

/-- The pool with slot `i` holding `v`. -/
def Pool.set (p : Pool) (i : VoiceIx) (v : Voice) : Pool :=
  match i.val with
  | 0 => { p with v0 := v }
  | 1 => { p with v1 := v }
  | 2 => { p with v2 := v }
  | 3 => { p with v3 := v }
  | 4 => { p with v4 := v }
  | 5 => { p with v5 := v }
  | 6 => { p with v6 := v }
  | _ => { p with v7 := v }

/-- `for i in 0..7: x[i] <- f(x[i])` (R7). -/
def Pool.map (f : Voice → Voice) (p : Pool) : Pool :=
  ⟨f p.v0, f p.v1, f p.v2, f p.v3, f p.v4, f p.v5, f p.v6, f p.v7⟩

/-- The voices in pool iteration order (R7). -/
def Pool.toList (p : Pool) : List Voice := [p.v0, p.v1, p.v2, p.v3, p.v4, p.v5, p.v6, p.v7]

/-- `first i in 0..7 with P(x[i])`, the least such index or none (R7). -/
def Pool.findFirst (p : Pool) (P : Voice → Bool) : Option VoiceIx :=
  ([0, 1, 2, 3, 4, 5, 6, 7] : List VoiceIx).find? fun i => P (p.get i)

/-! ## State updates, one per field that some step writes -/

def State.setVoices (s : State) (p : Pool) : State := { s with voices := p }
def State.setFs (s : State) (fs : V) : State := { s with fs := fs }
def State.setChan (s : State) (q : List CmdWord) : State := { s with chan := q }
def State.setDraining (s : State) (b : Bool) : State := { s with draining := b }
def State.setInputs (s : State) (l : List Input) : State := { s with inputs := l }
def State.setProducer (s : State) (p : Nat) : State := { s with producer := p }

/-- Delivery of a sample on the render port (R43). -/
def State.emitSample (s : State) (v : V) : State := { s with samples := v :: s.samples }

/-- One voice replaced by `f` of it; the other seven keep every register. -/
def State.updateVoice (s : State) (i : VoiceIx) (f : Voice → Voice) : State :=
  s.setVoices (s.voices.set i (f (s.voices.get i)))

/-- A broadcast to all 8 voices, `Off` ones included, in one step (R67). -/
def State.broadcast (s : State) (f : Voice → Voice) : State := s.setVoices (s.voices.map f)

/-! ## The channel -/

/-- There is room for one more word (R61): always so when `CH_CAP = ∞`. -/
def hasRoom (cap : Option Nat) (q : List CmdWord) : Bool :=
  match cap with
  | none => true
  | some n => decide (q.length < n)

/-- `ChPush` on the channel's contents (R61): append at the tail, or `full` with nothing changed. -/
def chPush (cap : Option Nat) (q : List CmdWord) (w : CmdWord) : PushResult × List CmdWord :=
  if hasRoom cap q then (.ok, q ++ [w]) else (.full, q)

/-- `ChPop` on the channel's contents (R62): the oldest word and the rest, or `none` for `empty`. -/
def chPop (q : List CmdWord) : Option (CmdWord × List CmdWord) :=
  match q with
  | [] => none
  | w :: rest => some (w, rest)

end Sys2Proof.Machine
end

