-- ==== Sys2Proof/Machine/Flags.lean ====
section
/-! DEFINITION. The block has no flags, condition codes or status register (spec/10_state.md R41). Its one status value
is the result of `ChPush`, handed to the producer that called (spec/60_exceptions.md R232). -/

namespace Sys2Proof.Machine

/-- The result `r` goes to producer `p` and nowhere else (R232). -/
def State.report (s : State) (p : Nat) (r : PushResult) : State :=
  { s with results := (p, r) :: s.results }

/-- The whole step `ChPush(p, w)` (R61): the channel and the result to the caller. -/
def State.pushWord (s : State) (p : Nat) (w : CmdWord) : State :=
  (s.setChan (chPush s.cfg.chCap s.chan w).2).report p (chPush s.cfg.chCap s.chan w).1

end Sys2Proof.Machine
end

