-- ==== Sys2Proof/Machine/Midi.lean ====
section
/-! DEFINITION. The MIDI front end (spec/43_midi_frontend.md): from a message to zero or one command word, pushed by the
producer that runs it. -/

namespace Sys2Proof.Machine

/-- `NOTE_FREQ` payloads of notes 0 to 15 (R215). -/
def noteFreq0 : List (BitVec 32) :=
  [0x00082D01, 0x0008A976, 0x00092D51, 0x0009B904, 0x000A4D05, 0x000AE9D3, 0x000B8FF5, 0x000C3FF7,
   0x000CFA70, 0x000DC000, 0x000E914F, 0x000F6F11, 0x00105A02, 0x001152EC, 0x00125AA3, 0x00137208]

/-- `NOTE_FREQ` payloads of notes 16 to 31 (R215). -/
def noteFreq16 : List (BitVec 32) :=
  [0x00149A0A, 0x0015D3A7, 0x00171FE9, 0x00187FED, 0x0019F4E0, 0x001B8000, 0x001D229F, 0x001EDE22,
   0x0020B405, 0x0022A5D8, 0x0024B546, 0x0026E410, 0x00293415, 0x002BA74E, 0x002E3FD2, 0x0030FFDB]

/-- `NOTE_FREQ` payloads of notes 32 to 47 (R215). -/
def noteFreq32 : List (BitVec 32) :=
  [0x0033E9C0, 0x00370000, 0x003A453E, 0x003DBC44, 0x00416809, 0x00454BB0, 0x00496A8C, 0x004DC821,
   0x0052682A, 0x00574E9B, 0x005C7FA5, 0x0061FFB5, 0x0067D380, 0x006E0000, 0x00748A7B, 0x007B7888]

/-- `NOTE_FREQ` payloads of notes 48 to 63 (R215). -/
def noteFreq48 : List (BitVec 32) :=
  [0x0082D013, 0x008A9760, 0x0092D517, 0x009B9041, 0x00A4D054, 0x00AE9D37, 0x00B8FF49, 0x00C3FF6A,
   0x00CFA700, 0x00DC0000, 0x00E914F6, 0x00F6F110, 0x0105A025, 0x01152EC1, 0x0125AA2E, 0x01372082]

/-- `NOTE_FREQ` payloads of notes 64 to 79 (R215). -/
def noteFreq64 : List (BitVec 32) :=
  [0x0149A0A8, 0x015D3A6D, 0x0171FE92, 0x0187FED5, 0x019F4E01, 0x01B80000, 0x01D229EC, 0x01EDE220,
   0x020B404A, 0x022A5D82, 0x024B545C, 0x026E4104, 0x0293414F, 0x02BA74DB, 0x02E3FD25, 0x030FFDAA]

/-- `NOTE_FREQ` payloads of notes 80 to 95 (R215). -/
def noteFreq80 : List (BitVec 32) :=
  [0x033E9C01, 0x03700000, 0x03A453D9, 0x03DBC440, 0x04168094, 0x0454BB04, 0x0496A8B9, 0x04DC8208,
   0x0526829E, 0x0574E9B6, 0x05C7FA4A, 0x061FFB54, 0x067D3803, 0x06E00000, 0x0748A7B1, 0x07B78880]

/-- `NOTE_FREQ` payloads of notes 96 to 111 (R215). -/
def noteFreq96 : List (BitVec 32) :=
  [0x082D0128, 0x08A97607, 0x092D5172, 0x09B90410, 0x0A4D053D, 0x0AE9D36B, 0x0B8FF494, 0x0C3FF6A7,
   0x0CFA7005, 0x0DC00000, 0x0E914F62, 0x0F6F1100, 0x105A0251, 0x1152EC0E, 0x125AA2E4, 0x13720820]

/-- `NOTE_FREQ` payloads of notes 112 to 127 (R215). -/
def noteFreq112 : List (BitVec 32) :=
  [0x149A0A79, 0x15D3A6D6, 0x171FE928, 0x187FED4E, 0x19F4E00B, 0x1B800000, 0x1D229EC4, 0x1EDE2200,
   0x20B404A2, 0x22A5D81D, 0x24B545C7, 0x26E41040, 0x293414F2, 0x2BA74DAC, 0x2E3FD250, 0x30FFDA9D]

/-- The table of R215: for each note the multiple of `1/65536` nearest to `440 · 2^((n−69)/12)`. -/
def noteFreqTable : List (BitVec 32) :=
  noteFreq0 ++ noteFreq16 ++ noteFreq32 ++ noteFreq48 ++
    noteFreq64 ++ noteFreq80 ++ noteFreq96 ++ noteFreq112

/-- `NOTE_FREQ(n)` as a payload pattern (R215). -/
def noteFreq (n : BitVec 7) : BitVec 32 := noteFreqTable.getD n.toNat 0

/-- The command word of `MIDI.NOTE_ON` (R211): velocity 0 is a note-off. -/
def midiNoteOnCmd (n vel : BitVec 7) : CmdWord :=
  if vel ≠ 0 then noteOnWord n (noteFreq n) else noteOffWord n

/-- `midi_to_cmd` (R210): the command word a message yields, or none (R214). -/
def midiToCmd (m : MidiMsg) : Option CmdWord :=
  match decodeMidi m with
  | .ok (.midiNoteOn _ n vel) => some (midiNoteOnCmd n vel)
  | .ok (.midiNoteOff _ n _) => some (noteOffWord n)
  | .ok (.midiCc _ c v) => some (controlChangeWord c v)
  | _ => none

/-- `MIDI.NOTE_ON` (R211): the channel and the size of the velocity are ignored. -/
def execMidiNoteOn (_ch : BitVec 4) (n vel : BitVec 7) (s : State) : Host.Outcome State Fault Refusal :=
  .next (s.pushWord s.producer (midiNoteOnCmd n vel))

/-- `MIDI.NOTE_OFF` (R212): channel and release velocity are ignored. -/
def execMidiNoteOff (_ch : BitVec 4) (n _vel : BitVec 7) (s : State) : Host.Outcome State Fault Refusal :=
  .next (s.pushWord s.producer (noteOffWord n))

/-- `MIDI.CC` (R213): every controller is forwarded. -/
def execMidiCc (_ch : BitVec 4) (c v : BitVec 7) (s : State) : Host.Outcome State Fault Refusal :=
  .next (s.pushWord s.producer (controlChangeWord c v))

end Sys2Proof.Machine
end

