-- ==== Sys2Proof/Machine/Assembler.lean ====
section
/-! DEFINITION. The assembler's part of spec/30_encoding.md: the rounding of a decimal operand (R101) and the
pseudo-instructions (R102), as schedules of the agents' actions. -/

namespace Sys2Proof.Machine

/-- The nearest multiple of `1/65536`, ties to the even multiple (R101). -/
def assembleValue (r : V) : V :=
  let x := r * 65536
  let lo := x.floor
  let d := x - (lo : V)
  let k : Int := if d < 1 / 2 then lo else if 1 / 2 < d then lo + 1 else if lo % 2 = 0 then lo else lo + 1
  (k : V) / 65536

/-- `TICK n` (R102 a). -/
def tickTimes (n : Nat) : List Input := List.replicate n (.request 0)

/-- `BUFFER n` (R102 b): one output buffer, `DRAIN` before its samples. -/
def buffer (n : Nat) : List Input := .request 1 :: tickTimes n

/-- What a MIDI form expands to (R102 c): the command it stands for; other instructions stand for
themselves. -/
def expand : Instr → Instr
  | .nop => .nop
  | .noteOn n f => .noteOn n f
  | .noteOff n => .noteOff n
  | .paramAttack v => .paramAttack v
  | .paramDecay v => .paramDecay v
  | .paramSustain v => .paramSustain v
  | .paramRelease v => .paramRelease v
  | .paramModRange v => .paramModRange v
  | .paramLfoFreq v => .paramLfoFreq v
  | .controlChange c v => .controlChange c v
  | .tick => .tick
  | .drain => .drain
  | .reset fs => .reset fs
  | .midiNoteOff _ n _ => .noteOff n
  | .midiNoteOn _ n vel => if vel ≠ 0 then .noteOn n (wire (noteFreq n)) else .noteOff n
  | .midiCc _ c v => .controlChange c v

end Sys2Proof.Machine
end

