-- ==== Sys2Proof/Machine/Operands.lean ====
section
/-! DEFINITION. The number systems (spec/00_scope.md R8 to R11), and the selection of a voice, the block's "addressing
modes" (spec/41_engine_events.md R171, R172). -/

namespace Sys2Proof.Machine

/-- The controller acted on, `MODWHEEL_CC` (R5). -/
def modWheelCc : BitVec 7 := 1

/-! ## Order (R8 N1), the same in every number system -/

/-- `max` of `NUM` (R8 N1). -/
def maxV (a b : V) : V := if a ≤ b then b else a

/-- `min(a, b) = a if a ≤ b else b` (R125). -/
def minV (a b : V) : V := if a ≤ b then a else b

/-! ## The reference profile `EXACT` (R9) -/

/-- `mod1(x) = x − floor(x)` (R11), exactly. -/
def mod1 (x : V) : V := x - (x.floor : V)

/-- `ofInt` (R8, R95), exactly. -/
def ofInt (n : BitVec 7) : V := (n.toNat : V)

/-- `SINQ` (R10): pinned at the eight rational points of (S2), elsewhere the free value brought into
`[−1, 1]` (S1). Every function within (S1) that meets (S2) arises for some `Config.sinFree` (log 2). -/
def sinq (p : V) : V :=
  if p = 0 then 0
  else if p = 1 / 12 then 1 / 2
  else if p = 1 / 4 then 1
  else if p = 5 / 12 then 1 / 2
  else if p = 1 / 2 then 0
  else if p = 7 / 12 then -1 / 2
  else if p = 3 / 4 then -1
  else if p = 11 / 12 then -1 / 2
  else maxV (-1) (minV (Config.sinFree p) 1)

end Sys2Proof.Machine

namespace Sys2Proof

/-- `EXACT` (R9): every rational is a value, the operations are those of ℚ, the constants are the decimals of
R5. -/
def NumOps.exact : NumOps where
  mem := fun _ => true
  add := fun x y => x + y
  sub := fun x y => x - y
  mul := fun x y => x * y
  div := fun x y => x / y
  mod1 := Machine.mod1
  sin := Machine.sinq
  ofWire := fun x => x
  ofInt := Machine.ofInt
  two := 2
  minTime := 1 / 1000
  tenth := 1 / 10
  mixGain := 1 / 5
  releaseReset := 3 / 10
  sustainReset := 7 / 10
  modRangeReset := 20
  ccScale := 127

/-! ## The other number systems (R8) -/

/-- `x` is an integer `0..127`, what `ofInt` converts exactly (R95). -/
def isSmallInt (x : V) : Bool := x.den == 1 && decide (0 ≤ x) && decide (x ≤ 127)

/-- The integers `0..127` are values of every system (R95), `0` and `1` among them (N2). -/
def NumOps.isValue (N : NumOps) (x : V) : Bool := isSmallInt x || N.mem x

/-- `x` if it is a value of the system, else 0. -/
def NumOps.toValue (N : NumOps) (x : V) : V := if N.isValue x then x else 0

/-- The wheel depth `v/127` (R163): exactly 0 for 0, exactly 1 for 127, in `[0, 1]` between. -/
def NumOps.wheelDepth (N : NumOps) (v : V) : V :=
  if v = 0 then 0
  else if v = 127 then 1
  else if 0 ≤ N.div v 127 ∧ N.div v 127 ≤ 1 then N.toValue (N.div v 127) else 0

/-- The nearest system within the laws of R8, R95 and R163 (`NumOps.Lawful`): an operation whose result a law fixes has that
result, one whose result a law bounds stays within the bound, and every result is a value of the system. It
changes no system that is within the laws already (`NumOps.toLawful_of_lawful`), so each of those arises. -/
def NumOps.toLawful (N : NumOps) : NumOps where
  mem := N.isValue
  add := fun x y =>
    if y = 0 ∧ N.isValue x = true then x
    else if x = 0 ∧ N.isValue y = true then y else N.toValue (N.add x y)
  sub := fun x y => N.toValue (N.sub x y)
  mul := fun x y =>
    if x = 0 ∨ y = 0 then 0
    else if y = 1 ∧ N.isValue x = true then x else N.toValue (N.mul x y)
  div := fun x y => if y = 127 ∧ isSmallInt x = true then N.wheelDepth x else N.toValue (N.div x y)
  mod1 := fun x => if 0 ≤ N.mod1 x ∧ N.mod1 x < 1 then N.toValue (N.mod1 x) else 0
  sin := fun p =>
    if 0 ≤ p ∧ p < 1 ∧ ¬(-1 ≤ N.sin p ∧ N.sin p ≤ 1) then 0 else N.toValue (N.sin p)
  ofWire := fun x => N.toValue (N.ofWire x)
  ofInt := Machine.ofInt
  two := 2
  minTime := N.toValue N.minTime
  tenth := N.toValue N.tenth
  mixGain := N.toValue N.mixGain
  releaseReset := N.toValue N.releaseReset
  sustainReset := N.toValue N.sustainReset
  modRangeReset := 20
  ccScale := 127

end Sys2Proof

namespace Sys2Proof.Machine

/-- The operations of the number system `NUM` of a configuration (R5, R8; log 1). -/
def numOps : NumSystem → NumOps
  | .exact => .exact
  | .free k => (Config.freeNum k).toLawful

/-- Everything a launch with the rate `fs` takes from outside is a value of the number system: `fs`,
`MODWHEEL_RESET` and `LFO_FREQ_RESET` (R241). -/
def representable (c : Config) (fs : V) : Bool :=
  (numOps c.num).mem fs && (numOps c.num).mem c.modWheelReset && (numOps c.num).mem c.lfoFreqReset

/-- The operations the machine computes with. -/
def State.num (s : State) : NumOps := numOps s.cfg.num

/-! ## The state codes -/

/-- The 3-bit register code of `x[i].state` (R26). No operation returns it. -/
def envCode : EnvState → BitVec 3
  | .off => 0
  | .attack => 1
  | .decay => 2
  | .sustain => 3
  | .release => 4

/-! ## Voice selection -/

/-- `x[i].state = e`. -/
def inState (e : EnvState) (v : Voice) : Bool := decide (v.state = e)

/-- `select_on()` (R171): the first `Off` voice, else the first `Release` voice, else none. -/
def selectOn (p : Pool) : Option VoiceIx :=
  match p.findFirst (inState .off) with
  | some i => some i
  | none => p.findFirst (inState .release)

/-- `select_off(n)` (R172): the first voice holding note `n` that is not `Off`. -/
def selectOff (p : Pool) (n : BitVec 7) : Option VoiceIx :=
  p.findFirst fun v => decide (v.note = n) && !inState .off v

end Sys2Proof.Machine
end

