-- ==== Sys2Proof/Machine/Voice.lean ====
section
/-! DEFINITION. The operations of one voice (spec/40_voice.md): note control, rate setting, the envelope generator, the LFO,
the oscillator, and one rendered sample. Each is a function of the voice's registers and of what R120 to R136
say it reads besides them, the number system `N` (R8) first. -/

namespace Sys2Proof.Machine

/-! ## Note control -/

/-- `V.NOTE_ON` (R120): `amp`, both phases and the settings keep their values. -/
def voiceNoteOn (n : BitVec 7) (f : V) (v : Voice) : Voice :=
  { v with note := n, base := f, state := .attack }

/-- `V.NOTE_OFF` (R121). -/
def voiceNoteOff (v : Voice) : Voice := { v with state := .release }

/-! ## Rate setting -/

/-- `1 / (max(seconds, 0.001) · FS)` (R122 to R124). -/
def rateOf (N : NumOps) (seconds fs : V) : V := N.div 1 (N.mul (maxV seconds N.minTime) fs)

/-- `V.SET_ATTACK` (R122). -/
def voiceSetAttack (N : NumOps) (fs seconds : V) (v : Voice) : Voice :=
  { v with attackRate := rateOf N seconds fs }

/-- `V.SET_DECAY` (R123). -/
def voiceSetDecay (N : NumOps) (fs seconds : V) (v : Voice) : Voice :=
  { v with decayRate := rateOf N seconds fs }

/-- `V.SET_RELEASE` (R124). -/
def voiceSetRelease (N : NumOps) (fs seconds : V) (v : Voice) : Voice :=
  { v with releaseRate := rateOf N seconds fs }

/-- `V.SET_SUSTAIN` (R125): clamped into `[0, 1]`. -/
def voiceSetSustain (level : V) (v : Voice) : Voice := { v with sustain := maxV 0 (minV level 1) }

/-! ## The envelope generator -/

/-- The `Attack` arm (R126). -/
def attackArm (N : NumOps) (v : Voice) : Voice :=
  if 1 ≤ N.add v.amp v.attackRate then { v with amp := 1, state := .decay }
  else { v with amp := N.add v.amp v.attackRate }

/-- The `Decay` arm (R127). -/
def decayArm (N : NumOps) (v : Voice) : Voice :=
  if N.sub v.amp v.decayRate ≤ v.sustain then { v with amp := v.sustain, state := .sustain }
  else { v with amp := N.sub v.amp v.decayRate }

/-- The `Sustain` arm (R128): nothing. -/
def sustainArm (v : Voice) : Voice := v

/-- The `Release` arm (R129). -/
def releaseArm (N : NumOps) (v : Voice) : Voice :=
  if N.sub v.amp v.releaseRate ≤ 0 then { v with amp := 0, phase := 0, state := .off }
  else { v with amp := N.sub v.amp v.releaseRate }

/-- `V.ENV_STEP` (R130): exactly one arm, chosen by the state on entry (D6; log 16). -/
def envStep (N : NumOps) (v : Voice) : Voice :=
  match v.state with
  | .attack => attackArm N v
  | .decay => decayArm N v
  | .sustain => sustainArm v
  | .release => releaseArm N v
  | .off => v

/-! ## The LFO -/

/-- The LFO phase after one sample (R131). -/
def lfoAdvance (N : NumOps) (fs : V) (v : Voice) : V := N.mod1 (N.add v.lfoPhase (N.div v.lfoFreq fs))

/-- `lfoValue · modWheel · modRange` (R132). Written so that a zero depth is zero without looking at the
LFO value (R8 N2), which may be the free value (log 2); it equals the product (`modulation_eq`). -/
def modulation (N : NumOps) (lfoValue modWheel modRange : V) : V :=
  if modWheel = 0 ∨ modRange = 0 then 0 else N.mul (N.mul lfoValue modWheel) modRange

/-- `max(0, base + modulation)` (R132). -/
def effFreq (N : NumOps) (base modulationHz : V) : V := maxV 0 (N.add base modulationHz)

/-! ## The oscillator -/

/-- The naive bipolar sawtooth `2 · phase − 1` (R133). -/
def waveform (N : NumOps) (phase : V) : V := N.sub (N.mul N.two phase) 1

/-- The effective frequency of this sample, from the LFO value at the phase before its advance
(R131, R132). -/
def voiceFreq (N : NumOps) (v : Voice) : V :=
  effFreq N v.base (modulation N (N.sin v.lfoPhase) v.modWheel v.modRange)

/-- Steps 2 to 6 of `render_next`, after the envelope step (R131 to R135): the output uses the new `amp`
and the old `phase`. -/
def renderTail (N : NumOps) (fs : V) (v : Voice) : V × Voice :=
  (N.mul (waveform N v.phase) v.amp,
   { v with lfoPhase := lfoAdvance N fs v, phase := N.mod1 (N.add v.phase (N.div (voiceFreq N v) fs)) })

/-- `V.RENDER` (R136) with `P_OFF_EARLY_EXIT` as `early`: the voice's output and its registers after. -/
def renderVoice (N : NumOps) (early : Bool) (fs : V) (v : Voice) : V × Voice :=
  if v.state = .off then (0, v)
  else if early && inState .off (envStep N v) then (0, envStep N v)
  else renderTail N fs (envStep N v)

/-- A voice as `RESET(fs)` writes it (R194): the three rates through the rate setters, the rest directly. -/
def freshVoice (cfg : Config) (fs : V) : Voice where
  note := 0
  base := 0
  phase := 0
  lfoPhase := 0
  state := .off
  amp := 0
  attackRate := rateOf (numOps cfg.num) (numOps cfg.num).tenth fs
  decayRate := rateOf (numOps cfg.num) (numOps cfg.num).tenth fs
  releaseRate := rateOf (numOps cfg.num) (numOps cfg.num).releaseReset fs
  sustain := (numOps cfg.num).sustainReset
  modWheel := cfg.modWheelReset
  modRange := (numOps cfg.num).modRangeReset
  lfoFreq := cfg.lfoFreqReset

end Sys2Proof.Machine
end

