-- ==== Sys2Proof/Machine/Engine.lean ====
section
/-! DEFINITION. The meanings of the ten command words (spec/41_engine_events.md). Each is one atomic step on the voice
registers; none touches the channel or produces a sample (R160). Popping the word is the fetch's
(`Machine/Fetch.lean`). A numeric operand is the number the payload stands for; `ofWire` of the machine's number
system makes it a value (R8, R12; log 13). -/

namespace Sys2Proof.Machine

/-- `NOP` (R170). -/
def execNop (s : State) : Host.Outcome State Fault Refusal := .next s

/-- `NOTE_ON` (R161): with no voice `Off` or `Release` the note is dropped (X1). -/
def execNoteOn (n : BitVec 7) (f : V) (s : State) : Host.Outcome State Fault Refusal :=
  .next (match selectOn s.voices with
    | some i => s.updateVoice i (voiceNoteOn n (s.num.ofWire f))
    | none => s)

/-- `NOTE_OFF` (R162): an unmatched note changes nothing (X2). -/
def execNoteOff (n : BitVec 7) (s : State) : Host.Outcome State Fault Refusal :=
  .next (match selectOff s.voices n with
    | some i => s.updateVoice i voiceNoteOff
    | none => s)

/-- `CONTROL_CHANGE` (R163): only controller 1 acts (X3). -/
def execControlChange (c v : BitVec 7) (s : State) : Host.Outcome State Fault Refusal :=
  .next (if c = modWheelCc then
      s.broadcast fun x => { x with modWheel := s.num.div (s.num.ofInt v) s.num.ccScale }
    else s)

/-- `PARAM_CHANGE.MODRANGE` (R164): stored as given (D20). -/
def execParamModRange (v : V) (s : State) : Host.Outcome State Fault Refusal :=
  .next (s.broadcast fun x => { x with modRange := s.num.ofWire v })

/-- `PARAM_CHANGE.LFOFREQ` (R165): stored as given (D20). -/
def execParamLfoFreq (v : V) (s : State) : Host.Outcome State Fault Refusal :=
  .next (s.broadcast fun x => { x with lfoFreq := s.num.ofWire v })

/-- A broadcast that happens only with `P_WIRE_ADSR` (D8, X4). -/
def wiredBroadcast (s : State) (f : Voice → Voice) : State :=
  if s.cfg.wireAdsr then s.broadcast f else s

/-- `PARAM_CHANGE.ATTACK` (R166). -/
def execParamAttack (v : V) (s : State) : Host.Outcome State Fault Refusal :=
  .next (wiredBroadcast s (voiceSetAttack s.num s.fs (s.num.ofWire v)))

/-- `PARAM_CHANGE.DECAY` (R167). -/
def execParamDecay (v : V) (s : State) : Host.Outcome State Fault Refusal :=
  .next (wiredBroadcast s (voiceSetDecay s.num s.fs (s.num.ofWire v)))

/-- `PARAM_CHANGE.SUSTAIN` (R168). -/
def execParamSustain (v : V) (s : State) : Host.Outcome State Fault Refusal :=
  .next (wiredBroadcast s (voiceSetSustain (s.num.ofWire v)))

/-- `PARAM_CHANGE.RELEASE` (R169). -/
def execParamRelease (v : V) (s : State) : Host.Outcome State Fault Refusal :=
  .next (wiredBroadcast s (voiceSetRelease s.num s.fs (s.num.ofWire v)))

end Sys2Proof.Machine
end

