-- ==== Sys2Proof/Machine/Render.lean ====
section
/-! DEFINITION. The meanings of `TICK`, `DRAIN` and `RESET` (spec/42_engine_render.md). -/

namespace Sys2Proof.Machine

/-- The 8 voice outputs of one `TICK`, in pool order (R190). -/
def voiceOutputs (N : NumOps) (early : Bool) (fs : V) (p : Pool) : List V :=
  p.toList.map fun v => (renderVoice N early fs v).1

/-- The mixed sample (R190): a left fold from 0 in ascending order, times `MIX_GAIN`, unclipped (R193). -/
def mix (N : NumOps) (outs : List V) : V := N.mul (outs.foldl N.add 0) N.mixGain

/-- `TICK` (R190): every voice is rendered once, and the mixed sample is delivered. -/
def execTick (s : State) : Host.Outcome State Fault Refusal :=
  .next ((s.setVoices (s.voices.map fun v => (renderVoice s.num s.cfg.offEarlyExit s.fs v).2)).emitSample
    (mix s.num (voiceOutputs s.num s.cfg.offEarlyExit s.fs s.voices)))

/-- `DRAIN` (R191): the engine enters the pop loop. Each iteration of the loop, a pop with the execution
of the popped word, is a step of its own, up to the pop that finds the channel empty (R14, D21): those
steps are `fetch`'s (log 7). -/
def execDrain (s : State) : Host.Outcome State Fault Refusal := .next (s.setDraining true)

/-- `RESET fs` (R194): writes every register, empties the channel; a new engine has no drain in
progress (log 8). `fs ≤ 0` is refused, and so is a launch with a rate or a reset value that the number system
cannot represent (R241, U3). -/
def execReset (fs : V) (s : State) : Host.Outcome State Fault Refusal :=
  if fs ≤ 0 then .refused .sampleRateNotPositive
  else if representable s.cfg fs then
    .next ((((s.setFs fs).broadcast fun _ => freshVoice s.cfg fs).setChan []).setDraining false)
  else .refused .notRepresentable

end Sys2Proof.Machine
end

