-- ==== Sys2Proof/Machine/Dispatch.lean ====
section
/-! DEFINITION. The dispatch: one arm per constructor of `Instr`, in the order of spec/30_encoding.md R100. -/

namespace Sys2Proof.Machine

def exec (i : Instr) (s : State) : Host.Outcome State Fault Refusal :=
  match i with
  | .nop => Sys2Proof.Machine.execNop s
  | .noteOn n f => Sys2Proof.Machine.execNoteOn n f s
  | .noteOff n => Sys2Proof.Machine.execNoteOff n s
  | .paramAttack v => Sys2Proof.Machine.execParamAttack v s
  | .paramDecay v => Sys2Proof.Machine.execParamDecay v s
  | .paramSustain v => Sys2Proof.Machine.execParamSustain v s
  | .paramRelease v => Sys2Proof.Machine.execParamRelease v s
  | .paramModRange v => Sys2Proof.Machine.execParamModRange v s
  | .paramLfoFreq v => Sys2Proof.Machine.execParamLfoFreq v s
  | .controlChange c v => Sys2Proof.Machine.execControlChange c v s
  | .tick => Sys2Proof.Machine.execTick s
  | .drain => Sys2Proof.Machine.execDrain s
  | .reset fs => Sys2Proof.Machine.execReset fs s
  | .midiNoteOff ch n vel => Sys2Proof.Machine.execMidiNoteOff ch n vel s
  | .midiNoteOn ch n vel => Sys2Proof.Machine.execMidiNoteOn ch n vel s
  | .midiCc ch c v => Sys2Proof.Machine.execMidiCc ch c v s

end Sys2Proof.Machine
end

