-- ==== Sys2Proof/Machine/Fetch.lean ====
section
/-! DEFINITION. Whose step is next, and which instruction it runs (spec/00_scope.md R13, R14; spec/42_engine_render.md R191, R192).
The block has no program counter (spec/10_state.md R40): the next command is the oldest word of the channel, and
the next request is what the agents' schedule says. -/

namespace Sys2Proof.Machine

/-- What the fetch finds: a step that runs no instruction and its result, an instruction with the state
it runs in, or a refusal. -/
inductive Fetched where
  | moved (s : State)
  | run (i : Instr) (s : State)
  | refused (r : Refusal)
  deriving DecidableEq, Repr

/-- The agents' actions still to come, up to the next round of those that repeat (log 6). -/
def State.pending (s : State) : List Input :=
  match s.inputs with
  | [] => s.repeats
  | x :: rest => x :: rest

/-- One iteration of the `DRAIN` loop (R191): the oldest word is removed and is the instruction to run;
a pop that finds the channel empty ends the drain. -/
def fetchPop (s : State) : Fetched :=
  match chPop s.chan with
  | some (w, rest) => .run (decodeCW w) (s.setChan rest)
  | none => .moved (s.setDraining false)

/-- A request of the driver: while a drain is in progress the engine is not free, so the drain goes on
and the request stays (R14 "No two steps of the `ENGINE` overlap"; log 7). -/
def fetchRequest (i : Instr) (rest : List Input) (s : State) : Fetched :=
  if s.draining then fetchPop s else .run i (s.setInputs rest)

/-- A step of producer `p`, which exists only below `N_PROD` (R13; log 10). -/
def fetchProducer (p : Nat) (f : Fetched) (s : State) : Fetched :=
  if p < s.cfg.nProd then f else .refused .noSuchProducer

/-- The message of a front end: its instruction, or no event (R210, R214). -/
def fetchMidi (p : Nat) (m : MidiMsg) (s : State) : Fetched :=
  match decodeMidi m with
  | .ok i => .run i (s.setProducer p)
  | .error _ => .moved s

/-- The next step (log 6). With nothing scheduled, a drain in progress goes on, and an idle block stays
as it is. -/
def fetch (s : State) : Fetched :=
  match s.pending with
  | [] => if s.draining then fetchPop s else .moved s
  | .push p w :: rest => fetchProducer p (.moved ((s.setInputs rest).pushWord p w)) s
  | .midi p m :: rest => fetchProducer p (fetchMidi p m (s.setInputs rest)) s
  | .request rq :: rest => fetchRequest (decodeRQ rq) rest s
  | .reset fs :: rest => fetchRequest (.reset fs) rest s
  | .engine :: rest => if s.draining then fetchPop (s.setInputs rest) else .moved (s.setInputs rest)

/-- The state in which the next step runs the instruction of a row's bits (log 14): a command word is
put at the head of the channel of an engine that is draining and whose turn it is; a request or a MIDI
message is put at the head of the schedule. The `RESET` row has no bits: `w` is its operand in Hz. -/
def placeWord (s : State) (nbits w : Nat) : State :=
  if nbits = 64 then
    ((s.setChan (BitVec.ofNat 64 w :: s.chan.tail)).setDraining true).setInputs (.engine :: s.inputs)
  else if nbits = 24 then s.setInputs (.midi 0 (BitVec.ofNat 24 w) :: s.inputs)
  else if nbits = 0 then (s.setInputs (.reset (w : V) :: s.inputs)).setDraining false
  else if nbits ≤ 8 ∧ w < 2 then
    (s.setInputs (.request (BitVec.ofNat 1 w) :: s.inputs)).setDraining false
  else s

end Sys2Proof.Machine
end

