-- ==== Sys2Proof/Machine/Step.lean ====
section
/-! DEFINITION. One step of the machine: the fetch, and the instruction it finds. -/

namespace Sys2Proof.Machine

/-- One atomic step (spec/00_scope.md R14). -/
def step (s : State) : Host.Outcome State Fault Refusal :=
  match fetch s with
  | .moved s' => .next s'
  | .run i s' => exec i s'
  | .refused r => .refused r

/-- `s` with the instruction of a row's bits where `step` fetches next (log 14). -/
def State.withFetchWord (s : State) (nbits w : Nat) : State := placeWord s nbits w

end Sys2Proof.Machine
end

