-- ==== Sys2Proof/Safety.lean ====
section
/-! DEFINITION. What counts as a safe state and a safe run: the invariants of spec/10_state.md R37 to R39 and R42, the range
contract of spec/70_reset_and_hazards.md R270, and runs of several steps. -/

namespace Sys2Proof

/-! ## The number system -/

/-- The laws of R8, R95 and R163 that every instance of `NUM` satisfies. N1 is the order of ℚ and `maxV`; N5 is
the form of `NumOps`. Of N2 the laws `0 · x = 0` and `0 + x = x` are DEDUCED (log 1): R132 ("`modWheel = 0` ... makes
`modulation = 0`"), R190 (all voices `Off` give exactly 0) and R161 (e) need them. -/
structure NumOps.Lawful (N : NumOps) : Prop where
  /-- N2: `0` and `1` are values. -/
  zero_mem : N.mem 0 = true
  one_mem : N.mem 1 = true
  /-- N2: `x + 0 = x`, and `0 + x = x`. -/
  add_zero : ∀ x, N.mem x = true → N.add x 0 = x
  zero_add : ∀ x, N.mem x = true → N.add 0 x = x
  /-- N2: `x · 0 = 0`, and `0 · x = 0`. -/
  mul_zero : ∀ x, N.mul x 0 = 0
  zero_mul : ∀ x, N.mul 0 x = 0
  /-- N2: `x · 1 = x`. -/
  mul_one : ∀ x, N.mem x = true → N.mul x 1 = x
  /-- N3. -/
  mod1_range : ∀ x, 0 ≤ N.mod1 x ∧ N.mod1 x < 1
  /-- N4. -/
  sin_range : ∀ p, 0 ≤ p → p < 1 → -1 ≤ N.sin p ∧ N.sin p ≤ 1
  /-- R95: `ofInt` is exact. -/
  ofInt_eq : ∀ n : BitVec 7, N.ofInt n = (n.toNat : V)
  /-- The constants of R5 that are integers `0..127`, hence values, are exact (DEDUCED from R95, log 1). -/
  two_eq : N.two = 2
  modRangeReset_eq : N.modRangeReset = 20
  ccScale_eq : N.ccScale = 127
  /-- R163: `v/127` is in `[0, 1]`, exactly 0 for 0 and exactly 1 for 127. -/
  wheel_range : ∀ n : BitVec 7, 0 ≤ N.div (n.toNat : V) 127 ∧ N.div (n.toNat : V) 127 ≤ 1
  wheel_zero : N.div 0 127 = 0
  wheel_full : N.div 127 127 = 1
  /-- The operations and constants are of type `V`: what they answer is a value of the system. -/
  add_mem : ∀ x y, N.mem (N.add x y) = true
  sub_mem : ∀ x y, N.mem (N.sub x y) = true
  mul_mem : ∀ x y, N.mem (N.mul x y) = true
  div_mem : ∀ x y, N.mem (N.div x y) = true
  mod1_mem : ∀ x, N.mem (N.mod1 x) = true
  sin_mem : ∀ p, N.mem (N.sin p) = true
  ofWire_mem : ∀ x, N.mem (N.ofWire x) = true
  ofInt_mem : ∀ n, N.mem (N.ofInt n) = true
  const_mem : ∀ x ∈ [N.two, N.minTime, N.tenth, N.mixGain, N.releaseReset, N.sustainReset, N.modRangeReset,
    N.ccScale], N.mem x = true

/-! What the derivations of R37 and R137 use of the arithmetic beyond those laws (log 26), each piece for the
statements that need it. All of it is about values of the system only, so a finite format that saturates and
rounds can have it. -/

/-- R137 and R37 (a): a sum of two values not below 0 is not below 0, and subtracting one steps down. -/
structure NumOps.KeepsSigns (N : NumOps) : Prop where
  add_nonneg : ∀ x y, N.mem x = true → N.mem y = true → 0 ≤ x → 0 ≤ y → 0 ≤ N.add x y
  sub_le : ∀ x y, N.mem x = true → N.mem y = true → 0 ≤ x → 0 ≤ y → N.sub x y ≤ x

/-- R37 (b) with "rates ≥ 0": no rate is negative, and the constant `0.7` is in `[0, 1]`. A rate may round to 0. -/
structure NumOps.NonnegRates (N : NumOps) : Prop where
  sustainReset_range : 0 ≤ N.sustainReset ∧ N.sustainReset ≤ 1
  rate_nonneg : ∀ seconds fs, N.mem seconds = true → N.mem fs = true → 0 < fs → 0 ≤ Machine.rateOf N seconds fs

/-- R28, R37 (b) with "rates `> 0`": besides, no rate rounds to 0. -/
structure NumOps.PositiveRates (N : NumOps) : Prop where
  sustainReset_range : 0 ≤ N.sustainReset ∧ N.sustainReset ≤ 1
  rate_pos : ∀ seconds fs, N.mem seconds = true → N.mem fs = true → 0 < fs → 0 < Machine.rateOf N seconds fs

end Sys2Proof

namespace Sys2Proof.Machine

/-! ## One voice -/

/-- R37 (a). -/
abbrev Voice.InRange (v : Voice) : Prop :=
  0 ≤ v.amp ∧ v.amp ≤ 1 ∧ 0 ≤ v.phase ∧ v.phase < 1 ∧ 0 ≤ v.lfoPhase ∧ v.lfoPhase < 1

/-- R37 (b) and (c), the rates as in the quoted "rates ≥ 0". -/
abbrev Voice.SettingsOk (v : Voice) : Prop :=
  0 ≤ v.sustain ∧ v.sustain ≤ 1 ∧ 0 ≤ v.attackRate ∧ 0 ≤ v.decayRate ∧ 0 ≤ v.releaseRate ∧
    0 ≤ v.modWheel ∧ v.modWheel ≤ 1

/-- R37 (b): the three rates are positive. -/
abbrev Voice.RatesPositive (v : Voice) : Prop := 0 < v.attackRate ∧ 0 < v.decayRate ∧ 0 < v.releaseRate

/-- The `Off` invariant (R38). -/
abbrev Voice.OffSilent (v : Voice) : Prop := v.state = .off → v.amp = 0

/-- R37 (a) to (c), the rates not below 0, and R38 for one voice. -/
abbrev Voice.Ok (v : Voice) : Prop := v.InRange ∧ v.SettingsOk ∧ v.OffSilent

/-- The seven broadcast registers of R39. -/
def Voice.settings (v : Voice) : List V :=
  [v.attackRate, v.decayRate, v.releaseRate, v.sustain, v.modWheel, v.modRange, v.lfoFreq]

/-- R37 (d). -/
abbrev Voice.InContract (v : Voice) : Prop := 0 ≤ v.modRange ∧ 0 < v.lfoFreq

/-- Every register of type `V` holds a value of the number system (R8, R21). -/
def Voice.Representable (N : NumOps) (v : Voice) : Prop :=
  ∀ x ∈ [v.base, v.phase, v.lfoPhase, v.amp, v.attackRate, v.decayRate, v.releaseRate, v.sustain, v.modWheel,
    v.modRange, v.lfoFreq], N.mem x = true

/-! ## The whole state -/

/-- Broadcast uniformity (R39). -/
abbrev Pool.Uniform (p : Pool) : Prop := ∀ i j : VoiceIx, (p.get i).settings = (p.get j).settings

/-- `|Q| ≤ CH_CAP` (R42). -/
def chanFits (cap : Option Nat) (q : List CmdWord) : Bool :=
  match cap with
  | none => true
  | some n => decide (q.length ≤ n)

/-- `FS > 0` (R35), legal parameters (R5) that the number system can represent with `FS` (R241), R37 (a) to (c)
with rates not below 0, R38, R39, R42. -/
abbrev State.Ranges (s : State) : Prop :=
  0 < s.fs ∧ s.cfg.wellFormed = true ∧ representable s.cfg s.fs = true ∧
    (∀ i : VoiceIx, (s.voices.get i).Ok) ∧ s.voices.Uniform ∧ chanFits s.cfg.chCap s.chan = true

/-- The invariant of the machine: those, and R37 (b) whole: every rate is positive. -/
abbrev State.Inv (s : State) : Prop := s.Ranges ∧ ∀ i : VoiceIx, (s.voices.get i).RatesPositive

/-- Every value the machine holds is one of its number system: the voice registers, `FS`, the two reset values
among the parameters, and the samples delivered (R8, R67). -/
structure State.Representable (s : State) : Prop where
  voices : ∀ i : VoiceIx, (s.voices.get i).Representable s.num
  launch : representable s.cfg s.fs = true
  samples : ∀ y ∈ s.samples, s.num.mem y = true

/-- A command that keeps the host's range contract (R270). Its payload is `wire` of the pattern, a value of the number
system (R12). -/
def instrInContract (N : NumOps) : Instr → Bool
  | .nop => true
  | .noteOn _ f => decide (0 < N.ofWire f)
  | .noteOff _ => true
  | .paramAttack _ => true
  | .paramDecay _ => true
  | .paramSustain _ => true
  | .paramRelease _ => true
  | .paramModRange v => decide (0 ≤ N.ofWire v)
  | .paramLfoFreq v => decide (0 < N.ofWire v)
  | .controlChange _ _ => true
  | .tick => true
  | .drain => true
  | .reset _ => true
  | .midiNoteOff _ _ _ => true
  | .midiNoteOn _ _ _ => true
  | .midiCc _ _ _ => true

/-- A word that keeps the contract. -/
def wordInContract (N : NumOps) (w : CmdWord) : Bool := instrInContract N (decodeCW w)

/-- An agent's action that keeps the contract: the word it pushes does, if it pushes one. -/
def Input.inContract (N : NumOps) : Input → Bool
  | .push _ w => wordInContract N w
  | .midi _ m => (midiToCmd m).all (wordInContract N)
  | .request _ => true
  | .reset _ => true
  | .engine => true

/-- The host keeps the contract (R270): every queued word and every word still to be pushed does, and
so do the registers. -/
abbrev State.InContract (s : State) : Prop :=
  (∀ i : VoiceIx, (s.voices.get i).InContract) ∧ s.chan.all (wordInContract s.num) = true ∧
    s.inputs.all (Input.inContract s.num) = true ∧ s.repeats.all (Input.inContract s.num) = true

/-! ## The agents -/

/-- An action the machine admits: its producer exists (R13), and a reset has a positive rate which, with the two
reset values, the number system can represent (R241). -/
def Input.admitted (c : Config) : Input → Bool
  | .push p _ => decide (p < c.nProd)
  | .midi p _ => decide (p < c.nProd)
  | .request _ => true
  | .reset fs => decide (0 < fs) && representable c fs
  | .engine => true

/-- An action of a producer. -/
def Input.byProducer : Input → Bool
  | .push _ _ => true
  | .midi _ _ => true
  | .request _ => false
  | .reset _ => false
  | .engine => false

/-- A drain is in progress and the next step is the engine's: no push comes first. -/
def State.engineTurn (s : State) : Bool :=
  s.draining && !(s.pending.head?.any Input.byProducer)

/-- The schedule after the engine's pop step: its own mark is used up, a waiting request stays. -/
def State.afterTurn (s : State) : List Input :=
  match s.pending with
  | .engine :: rest => rest
  | _ => s.inputs

/-- The next action is neither a producer's nor a mark of the engine: a drain in progress goes on by itself. -/
def State.drainsAlone (s : State) : Bool :=
  match s.pending with
  | [] => true
  | .push _ _ :: _ => false
  | .midi _ _ :: _ => false
  | .request _ :: _ => true
  | .reset _ :: _ => true
  | .engine :: _ => false

/-! ## Runs -/

/-- `k` steps, all of them to a next state. -/
def steps : Nat → State → Option State
  | 0, s => some s
  | k + 1, s =>
    match step s with
    | .next t => steps k t
    | .fault _ => none
    | .refused _ => none

/-- The words executed one after the other, each by its own instruction (R160). -/
def execWords : List CmdWord → State → Option State
  | [], s => some s
  | w :: ws, s =>
    match exec (decodeCW w) s with
    | .next t => execWords ws t
    | .fault _ => none
    | .refused _ => none

/-! ## Pushes during a drain -/

/-- The words a schedule pushes, in order. -/
def pushedWords : List Input → List CmdWord
  | [] => []
  | .push _ w :: l => w :: pushedWords l
  | .midi _ _ :: l => pushedWords l
  | .request _ :: l => pushedWords l
  | .reset _ :: l => pushedWords l
  | .engine :: l => pushedWords l

/-- The answers `ok` to those pushes, newest first, before the earlier results `r`. -/
def pushedResults : List Input → List (Nat × PushResult) → List (Nat × PushResult)
  | [], r => r
  | .push p _ :: l, r => pushedResults l ((p, .ok) :: r)
  | .midi _ _ :: l, r => pushedResults l r
  | .request _ :: l, r => pushedResults l r
  | .reset _ :: l, r => pushedResults l r
  | .engine :: l, r => pushedResults l r

/-- A schedule of engine marks and pushes, each push by a producer that exists and with room in the channel,
and no pop finding the channel empty, when the channel starts with `n` words. -/
def drainSchedule (c : Config) : Nat → List Input → Bool
  | _, [] => true
  | n, .push p _ :: l => decide (p < c.nProd) && decide (∀ k ∈ c.chCap, n < k) && drainSchedule c (n + 1) l
  | _, .midi _ _ :: _ => false
  | _, .request _ :: _ => false
  | _, .reset _ :: _ => false
  | 0, .engine :: _ => false
  | n + 1, .engine :: l => drainSchedule c n l

end Sys2Proof.Machine
end

