-- ==== Sys2Proof/Certificates/Slice0/Obligations.lean ====
section
/-! DEFINITION. The statements for the provers. Each docstring names the rule it formalises. -/

open Sys2Proof Sys2Proof.Machine

/-! ## Encoding -/

/-- Written-out words decode to what they stand for: nine command words of V-DEC (spec/95_test_vectors.md) to the
instruction the vector names, the two request bits of R98, and the messages of V-MIDI-1, V-MIDI-5 and V-MIDI-7 to the
MIDI form and the fields that R99 gives them. -/
def Obligations.SampleWordsDecode : Prop :=
  decodeCW 0x0000000000000000 = .nop ∧
  decodeCW 0x0145000001B80000 = .noteOn 69 440 ∧
  decodeCW 0x01450000FFFF0000 = .noteOn 69 (-1) ∧
  decodeCW 0x0245000000000000 = .noteOff 69 ∧
  decodeCW 0x0300000000008000 = .paramAttack (1 / 2) ∧
  decodeCW 0x0304000000140000 = .paramModRange 20 ∧
  decodeCW 0x03050000000323D7 = .paramLfoFreq (205783 / 65536) ∧
  decodeCW 0x04017F0000000000 = .controlChange 1 127 ∧
  decodeCW 0x0306000000010000 = .nop ∧
  decodeRQ 0 = .tick ∧ decodeRQ 1 = .drain ∧
  decodeMidi 0x904564 = .ok (.midiNoteOn 0 69 100) ∧
  decodeMidi 0x803C40 = .ok (.midiNoteOff 0 60 64) ∧
  decodeMidi 0xB50764 = .ok (.midiCc 5 7 100)

/-- The fields of a command word and of a MIDI message (R91, R93, R94, R95, R99): every operand at every value
it can have. -/
def Obligations.CommandWordFieldsDecode : Prop :=
  (∀ (n c x : BitVec 7) (v : BitVec 32),
    decodeCW (0x01#8 ++ 0#1 ++ n ++ 0#8 ++ 0#8 ++ v : BitVec 64) = .noteOn n ((v.toInt : V) / 65536) ∧
    decodeCW (0x02#8 ++ 0#1 ++ n ++ 0#8 ++ 0#8 ++ 0#32 : BitVec 64) = .noteOff n ∧
    decodeCW (0x03#8 ++ 0#8 ++ 0#8 ++ 0#8 ++ v : BitVec 64) = .paramAttack ((v.toInt : V) / 65536) ∧
    decodeCW (0x03#8 ++ 1#8 ++ 0#8 ++ 0#8 ++ v : BitVec 64) = .paramDecay ((v.toInt : V) / 65536) ∧
    decodeCW (0x03#8 ++ 2#8 ++ 0#8 ++ 0#8 ++ v : BitVec 64) = .paramSustain ((v.toInt : V) / 65536) ∧
    decodeCW (0x03#8 ++ 3#8 ++ 0#8 ++ 0#8 ++ v : BitVec 64) = .paramRelease ((v.toInt : V) / 65536) ∧
    decodeCW (0x03#8 ++ 4#8 ++ 0#8 ++ 0#8 ++ v : BitVec 64) = .paramModRange ((v.toInt : V) / 65536) ∧
    decodeCW (0x03#8 ++ 5#8 ++ 0#8 ++ 0#8 ++ v : BitVec 64) = .paramLfoFreq ((v.toInt : V) / 65536) ∧
    decodeCW (0x04#8 ++ 0#1 ++ c ++ 0#1 ++ x ++ 0#8 ++ 0#32 : BitVec 64) = .controlChange c x) ∧
  (∀ (ch : BitVec 4) (n x : BitVec 7),
    decodeMidi (0x8#4 ++ ch ++ 0#1 ++ n ++ 0#1 ++ x : BitVec 24) = .ok (.midiNoteOff ch n x) ∧
    decodeMidi (0x9#4 ++ ch ++ 0#1 ++ n ++ 0#1 ++ x : BitVec 24) = .ok (.midiNoteOn ch n x) ∧
    decodeMidi (0xB#4 ++ ch ++ 0#1 ++ n ++ 0#1 ++ x : BitVec 24) = .ok (.midiCc ch n x))

/-- The decoders against the mask and match tables of R97 and R99. A word selects a row other than `NOP`'s
exactly when it decodes to that row's instruction, and a word that selects no row decodes to `nop`; a MIDI
message selects a row exactly when it decodes to that row's form, and selects none exactly when it has no
instruction; no word and no message selects two rows. -/
def Obligations.DecoderFollowsMaskTable : Prop :=
  (∀ w : CmdWord,
    (∀ r ∈ cwRows, r.mnemonic ≠ "NOP" → (r.selects w = true ↔ (decodeCW w).mnemonic = r.mnemonic)) ∧
    ((∀ r ∈ cwRows, r.selects w = false) → decodeCW w = .nop) ∧
    (∀ r ∈ cwRows, ∀ r' ∈ cwRows, r.selects w = true → r'.selects w = true → r = r')) ∧
  (∀ m : MidiMsg,
    (∀ r ∈ midiRows, r.selects m = true ↔ ∃ i, decodeMidi m = .ok i ∧ i.mnemonic = r.mnemonic) ∧
    ((∀ r ∈ midiRows, r.selects m = false) ↔ ∃ e, decodeMidi m = .error e) ∧
    (∀ r ∈ midiRows, ∀ r' ∈ midiRows, r.selects m = true → r'.selects m = true → r = r'))

/-- R96 with R170: the words that decode to `nop` are the all-zero word and exactly the reserved words of
R96's list; when the engine pops one, the word is consumed and nothing else changes. -/
def Obligations.ReservedWordsDoNothing : Prop :=
  ∀ w : CmdWord,
    let op := w.extractLsb' 56 8
    let a := w.extractLsb' 48 8
    let b := w.extractLsb' 40 8
    let z := w.extractLsb' 32 8
    let v := w.extractLsb' 0 32
    (decodeCW w = .nop ↔
      w = 0 ∨ 5 ≤ op.toNat ∨ op = 0 ∨ (op = 3 ∧ 6 ≤ a.toNat) ∨
        ((op = 1 ∨ op = 2 ∨ op = 4) ∧ a.getLsbD 7 = true) ∨ (op = 4 ∧ b.getLsbD 7 = true) ∨
        ((op = 1 ∨ op = 2 ∨ op = 3) ∧ b ≠ 0) ∨ z ≠ 0 ∨ ((op = 2 ∨ op = 4) ∧ v ≠ 0)) ∧
    (decodeCW w = .nop → ∀ (s : State) (q : List CmdWord), s.engineTurn = true → s.chan = w :: q →
      step s = .next { s with chan := q, inputs := s.afterTurn }) ∧
    ∀ s : State, exec .nop s = .next s

/-- Decode and encode agree: for every instruction an encoding can carry (R97 "`decodeCW(encodeCW(c)) = c`
for every command `c` whose numeric operand is on the Q16.16 grid", and the same for R98, R99). -/
def Obligations.DecodeOfEncodeIsIdentity : Prop :=
  ∀ i : Instr, i.wellFormed = true → decode (encode i) = .ok i

/-- The other direction: a word that selects a row, a request and an accepted MIDI message have one
encoding each, which their instruction encodes to; and what is decoded is well formed. -/
def Obligations.EncodeOfDecodeIsIdentity : Prop :=
  (∀ w : CmdWord, (∃ r ∈ cwRows, r.selects w = true) → encode (decodeCW w) = .cw w) ∧
  (∀ r : BitVec 1, encode (decodeRQ r) = .rq r) ∧
  (∀ (m : MidiMsg) (i : Instr), decodeMidi m = .ok i → encode i = .midi3 m) ∧
  (∀ w : CmdWord, (decodeCW w).wellFormed = true)

/-- R69: byte 0 is bits 63..56 and byte 7 is bits 7..0, and eight bytes decode as the word they carry. -/
def Obligations.CommandWordIsBigEndian : Prop :=
  ∀ w : CmdWord,
    cwBytes w = (List.range 8).map (fun k => w.extractLsb' (56 - 8 * k) 8) ∧
    decodeBytes (cwBytes w) = .ok (decodeCW w)

/-- R210, R214: which messages yield no event, that then nothing is pushed and nothing else happens, and
that no `ParamChange` comes from MIDI. -/
def Obligations.UnmappedMidiYieldsNoEvent : Prop :=
  ∀ m : MidiMsg,
    (midiToCmd m = none ↔
      m.getLsbD 15 = true ∨ m.getLsbD 7 = true ∨
        (m.extractLsb' 20 4 ≠ 0x8 ∧ m.extractLsb' 20 4 ≠ 0x9 ∧ m.extractLsb' 20 4 ≠ 0xB)) ∧
    (midiToCmd m = none → ∀ (s : State) (p : Nat) (rest : List Input), p < s.cfg.nProd →
      s.pending = .midi p m :: rest → step s = .next { s with inputs := rest }) ∧
    (∀ w, midiToCmd m = some w →
      (∃ n f, decodeCW w = .noteOn n f) ∨ (∃ n, decodeCW w = .noteOff n) ∨
        (∃ c v, decodeCW w = .controlChange c v))

/-! ## The step -/

/-- A step runs the decoded instruction: the popped word on the engine's turn, else the request, the
reset or the message at the head of the schedule. The schedule and the waiting of requests during a
drain are the model's (logs 6, 7). -/
def Obligations.StepRunsDecodedInstruction : Prop :=
  ∀ s : State,
    (∀ w q, s.engineTurn = true → s.chan = w :: q →
      step s = exec (decodeCW w) { s with chan := q, inputs := s.afterTurn }) ∧
    (∀ rq rest, s.draining = false → s.pending = .request rq :: rest →
      step s = exec (decodeRQ rq) { s with inputs := rest }) ∧
    (∀ fs rest, s.draining = false → s.pending = .reset fs :: rest →
      step s = exec (.reset fs) { s with inputs := rest }) ∧
    (∀ p m rest i, p < s.cfg.nProd → s.pending = .midi p m :: rest → decodeMidi m = .ok i →
      step s = exec i { s with inputs := rest, producer := p })

/-- R62, R191: the pop that finds the channel empty ends the drain and changes nothing else; and a drain
ends in no other way: if a step ends it, the channel was empty. That a `RESET` waits for the end of a drain
is the model's (log 8). -/
def Obligations.DrainEndsAtFirstEmptyPop : Prop :=
  (∀ s : State, s.engineTurn = true → s.chan = [] →
    step s = .next { s with draining := false, inputs := s.afterTurn }) ∧
  (∀ s t : State, s.draining = true → step s = .next t → t.draining = false →
    s.chan = [] ∧ t = { s with draining := false, inputs := s.afterTurn })

/-- R230, R241: every enabled step completes and some step is always enabled: unless the schedule's head
is no action of the machine (a producer that does not exist, a reset that is refused), a step answers a next
state; a `RESET` is refused when `fs ≤ 0`, and when the number system cannot represent `fs` or one of the two reset
values among the parameters, which never happens in `EXACT`, and completes otherwise; no step answers a fault. -/
def Obligations.EveryAdmittedStepCompletes : Prop :=
  (∀ s : State, (∀ x ∈ s.pending.head?, x.admitted s.cfg = true) → ∃ t, step s = .next t) ∧
  (∀ (s : State) (fs : V), fs ≤ 0 → exec (.reset fs) s = .refused .sampleRateNotPositive) ∧
  (∀ (s : State) (fs : V), 0 < fs →
    (s.num.mem fs = true ∧ s.num.mem s.cfg.modWheelReset = true ∧ s.num.mem s.cfg.lfoFreqReset = true ∧
      ∃ t, exec (.reset fs) s = .next t) ∨
    ((s.num.mem fs = false ∨ s.num.mem s.cfg.modWheelReset = false ∨ s.num.mem s.cfg.lfoFreqReset = false) ∧
      exec (.reset fs) s = .refused .notRepresentable)) ∧
  (∀ (s : State) (fs : V), s.cfg.num = .exact → s.num.mem fs = true) ∧
  (∀ (s : State) (i : Instr) (f : Fault), step s ≠ .fault f ∧ exec i s ≠ .fault f)

/-- R160: a popped word always completes, whatever it is; it writes voice registers only, never the
channel, and produces no sample. -/
def Obligations.CommandWordsTouchOnlyVoices : Prop :=
  ∀ (w : CmdWord) (s : State), ∃ t, exec (decodeCW w) s = .next t ∧ t = { s with voices := t.voices }

/-! ## Note commands -/

/-- R161, R171, R120: `NOTE_ON` takes the first `Off` voice, else the first `Release` voice, else is
dropped; the chosen voice gets note, frequency (the payload as a value of the number system, R12) and `Attack`
and keeps every other register. -/
def Obligations.NoteOnAllocatesVoice : Prop :=
  ∀ (n : BitVec 7) (f : V) (s : State), ∃ t, exec (.noteOn n f) s = .next t ∧
    t = { s with voices := t.voices } ∧
    (∀ i : VoiceIx,
      (((s.voices.get i).state = .off ∧ ∀ j < i, (s.voices.get j).state ≠ .off) ∨
        ((∀ j, (s.voices.get j).state ≠ .off) ∧ (s.voices.get i).state = .release ∧
          ∀ j < i, (s.voices.get j).state ≠ .release)) →
      t.voices.get i = { s.voices.get i with note := n, base := s.num.ofWire f, state := .attack } ∧
      ∀ j, j ≠ i → t.voices.get j = s.voices.get j) ∧
    ((∀ i : VoiceIx, (s.voices.get i).state ≠ .off ∧ (s.voices.get i).state ≠ .release) → t = s)

/-- R162, R172, R121: `NOTE_OFF` releases the first voice that holds the note and is not `Off`, keeping
its amplitude and every other register, and no other voice; with no match nothing changes. -/
def Obligations.NoteOffReleasesFirstMatch : Prop :=
  ∀ (n : BitVec 7) (s : State), ∃ t, exec (.noteOff n) s = .next t ∧
    t = { s with voices := t.voices } ∧
    (∀ i : VoiceIx,
      (s.voices.get i).note = n → (s.voices.get i).state ≠ .off →
      (∀ j < i, ¬((s.voices.get j).note = n ∧ (s.voices.get j).state ≠ .off)) →
      t.voices.get i = { s.voices.get i with state := .release } ∧
      ∀ j, j ≠ i → t.voices.get j = s.voices.get j) ∧
    ((∀ i : VoiceIx, ¬((s.voices.get i).note = n ∧ (s.voices.get i).state ≠ .off)) → t = s)

/-- R162 (b), R265: a voice already in `Release` absorbs the `NOTE_OFF` of a later voice with the same note, in
`Attack`, `Decay` or `Sustain`: the whole state stays, and the later voice is not released. -/
def Obligations.ReleasingVoiceAbsorbsNoteOff : Prop :=
  ∀ (n : BitVec 7) (s : State) (i k : VoiceIx) (e : EnvState), i < k →
    (s.voices.get i).note = n → (s.voices.get i).state = .release →
    (∀ j < i, ¬((s.voices.get j).note = n ∧ (s.voices.get j).state ≠ .off)) →
    (s.voices.get k).note = n → (s.voices.get k).state = e → e ∈ [EnvState.attack, .decay, .sustain] →
    ∃ t, exec (.noteOff n) s = .next t ∧ t = s ∧ (t.voices.get k).state = e

/-- R271: the first sample of a note on a silent `Off` voice has `amp = attackRate` and the output
`(2·phase − 1) · attackRate` with the phase left in the slot, in every number system. -/
def Obligations.FirstSampleOfNote : Prop :=
  ∀ (n : BitVec 7) (f : V) (s : State) (i : VoiceIx), s.Ranges → (s.voices.get i).Representable s.num →
    (s.voices.get i).state = .off → (∀ j < i, (s.voices.get j).state ≠ .off) →
    (s.voices.get i).attackRate < 1 →
    ∃ t u, exec (.noteOn n f) s = .next t ∧ exec .tick t = .next u ∧
      (u.voices.get i).amp = (s.voices.get i).attackRate ∧ (u.voices.get i).state = .attack ∧
      (renderVoice t.num t.cfg.offEarlyExit t.fs (t.voices.get i)).1 =
        s.num.mul (s.num.sub (s.num.mul s.num.two (s.voices.get i).phase) 1) (s.voices.get i).attackRate

/-! ## Broadcast commands -/

/-- R163: `CONTROL_CHANGE 1, v` sets every `modWheel` to `v/127` and nothing else: in every number system a value
in `[0, 1]`, exactly 1 for 127 and exactly 0 for 0, and in `EXACT` the exact quotient. Every other controller
changes nothing. -/
def Obligations.ControlChangeSetsModWheel : Prop :=
  ∀ (c v : BitVec 7) (s : State),
    (c = 1 → ∃ t, exec (.controlChange c v) s = .next t ∧ t = { s with voices := t.voices } ∧
      ∀ i, t.voices.get i = { s.voices.get i with modWheel := s.num.div (v.toNat : V) 127 } ∧
        0 ≤ (t.voices.get i).modWheel ∧ (t.voices.get i).modWheel ≤ 1 ∧
        (v = 127 → (t.voices.get i).modWheel = 1) ∧ (v = 0 → (t.voices.get i).modWheel = 0) ∧
        (s.cfg.num = .exact → (t.voices.get i).modWheel = (v.toNat : V) / 127)) ∧
    (c ≠ 1 → exec (.controlChange c v) s = .next s)

/-- R164, R165: `PARAM_CHANGE.MODRANGE` and `.LFOFREQ` store the payload as given in every voice, any value
whatever, and write nothing else. The value is the payload in the number system (R12), in `EXACT` itself. -/
def Obligations.ModulationParamsAreStoredAsGiven : Prop :=
  ∀ (v : V) (s : State),
    (∃ t, exec (.paramModRange v) s = .next t ∧ t = { s with voices := t.voices } ∧
      ∀ i, t.voices.get i = { s.voices.get i with modRange := s.num.ofWire v }) ∧
    (∃ t, exec (.paramLfoFreq v) s = .next t ∧ t = { s with voices := t.voices } ∧
      ∀ i, t.voices.get i = { s.voices.get i with lfoFreq := s.num.ofWire v }) ∧
    (s.cfg.num = .exact → s.num.ofWire v = v)

/-- R166, R167, R169 with R122, R123, R124: with `P_WIRE_ADSR` the three rate commands recompute the rate
of every voice and write nothing else; without it they change nothing. The rate `r` is the formula in the
operations of the number system; in `EXACT` it is the exact quotient. -/
def Obligations.RateParamsFollowSwitch : Prop :=
  ∀ (v r : V) (s : State),
    r = s.num.div 1 (s.num.mul (max (s.num.ofWire v) s.num.minTime) s.fs) →
    (s.cfg.num = .exact → r = 1 / (max v (1 / 1000) * s.fs)) ∧
    (s.cfg.wireAdsr = true →
      (∃ t, exec (.paramAttack v) s = .next t ∧ t = { s with voices := t.voices } ∧
        ∀ i, t.voices.get i = { s.voices.get i with attackRate := r }) ∧
      (∃ t, exec (.paramDecay v) s = .next t ∧ t = { s with voices := t.voices } ∧
        ∀ i, t.voices.get i = { s.voices.get i with decayRate := r }) ∧
      (∃ t, exec (.paramRelease v) s = .next t ∧ t = { s with voices := t.voices } ∧
        ∀ i, t.voices.get i = { s.voices.get i with releaseRate := r })) ∧
    (s.cfg.wireAdsr = false →
      exec (.paramAttack v) s = .next s ∧ exec (.paramDecay v) s = .next s ∧
        exec (.paramRelease v) s = .next s)

/-- R168 with R125: with `P_WIRE_ADSR` the sustain level of every voice is the payload clamped into
`[0, 1]`, and amplitudes stay; without it nothing changes. -/
def Obligations.SustainParamIsClamped : Prop :=
  ∀ (v : V) (s : State),
    (s.cfg.wireAdsr = true →
      ∃ t, exec (.paramSustain v) s = .next t ∧ t = { s with voices := t.voices } ∧
        ∀ i, t.voices.get i = { s.voices.get i with sustain := max 0 (min (s.num.ofWire v) 1) } ∧
          0 ≤ (t.voices.get i).sustain ∧ (t.voices.get i).sustain ≤ 1) ∧
    (s.cfg.wireAdsr = false → exec (.paramSustain v) s = .next s)

/-- R71: a `CONTROL_CHANGE` or `PARAM_CHANGE` sent twice leaves the registers as sent once, and a `NOTE_OFF`
that no sounding voice matches, such as a second one, does nothing. -/
def Obligations.ResendingParamsIsIdempotent : Prop :=
  (∀ (s t : State) (v : V) (c x : BitVec 7) (i : Instr),
    (i = .controlChange c x ∨ i = .paramModRange v ∨ i = .paramLfoFreq v ∨ i = .paramAttack v ∨
      i = .paramDecay v ∨ i = .paramSustain v ∨ i = .paramRelease v) →
    exec i s = .next t → exec i t = .next t) ∧
  (∀ (s : State) (n : BitVec 7),
    (∀ i : VoiceIx, ¬((s.voices.get i).note = n ∧ (s.voices.get i).state ≠ .off)) →
    exec (.noteOff n) s = .next s)

/-! ## The voice -/

/-- R10, in `EXACT`: `SINQ` is in `[−1, 1]` and exact at the eight points where the sine is rational. -/
def Obligations.SineIsBoundedAndPinned : Prop :=
  (∀ p : V, -1 ≤ sinq p ∧ sinq p ≤ 1) ∧
  sinq 0 = 0 ∧ sinq (1 / 12) = 1 / 2 ∧ sinq (1 / 4) = 1 ∧ sinq (5 / 12) = 1 / 2 ∧ sinq (1 / 2) = 0 ∧
  sinq (7 / 12) = -1 / 2 ∧ sinq (3 / 4) = -1 ∧ sinq (11 / 12) = -1 / 2

/-- R11, in `EXACT`: `mod1(x) = x − floor(x)`, in `[0, 1)` for every `x`, negative ones included. -/
def Obligations.ModOneIsFloorModulus : Prop :=
  ∀ x : V, (∃ k : Int, x = mod1 x + (k : V) ∧ ∀ m : Int, (m : V) ≤ x ↔ m ≤ k) ∧
    0 ≤ mod1 x ∧ mod1 x < 1

/-- R130 with R126 to R129: the complete transition relation of one envelope step, with its effect on
`amp` and, on the way into `Off`, on `phase`; every other register stays. The sums are those of the number
system. -/
def Obligations.EnvelopeStepFollowsTransitionTable : Prop :=
  ∀ (N : NumOps) (v : Voice),
    (v.state = .attack → 1 ≤ N.add v.amp v.attackRate →
      envStep N v = { v with state := .decay, amp := 1 }) ∧
    (v.state = .attack → N.add v.amp v.attackRate < 1 →
      envStep N v = { v with amp := N.add v.amp v.attackRate }) ∧
    (v.state = .decay → N.sub v.amp v.decayRate ≤ v.sustain →
      envStep N v = { v with state := .sustain, amp := v.sustain }) ∧
    (v.state = .decay → v.sustain < N.sub v.amp v.decayRate →
      envStep N v = { v with amp := N.sub v.amp v.decayRate }) ∧
    (v.state = .sustain → envStep N v = v) ∧
    (v.state = .release → N.sub v.amp v.releaseRate ≤ 0 →
      envStep N v = { v with state := .off, amp := 0, phase := 0 }) ∧
    (v.state = .release → 0 < N.sub v.amp v.releaseRate →
      envStep N v = { v with amp := N.sub v.amp v.releaseRate }) ∧
    (v.state = .off → envStep N v = v)

/-- R136 with R131 to R135: an `Off` voice renders 0 and keeps every register; else the envelope step,
the early exit if it is switched on and `Off` was reached, else the output from the new `amp` and the old
`phase`, with both phases advanced, the LFO read before its advance and the frequency clamped at 0. The
formulas are those of the rules in the operations of any number system within the laws of R8. -/
def Obligations.RenderedSampleFollowsStepOrder : Prop :=
  ∀ (N : NumOps) (early : Bool) (fs : V) (v : Voice), N.Lawful →
    (v.state = .off → renderVoice N early fs v = (0, v)) ∧
    (v.state ≠ .off → early = true → (envStep N v).state = .off →
      renderVoice N early fs v = (0, envStep N v)) ∧
    (v.state ≠ .off → ¬(early = true ∧ (envStep N v).state = .off) →
      ∀ e, e = envStep N v → renderVoice N early fs v =
        (N.mul (N.sub (N.mul N.two e.phase) 1) e.amp,
         { e with
           lfoPhase := N.mod1 (N.add e.lfoPhase (N.div e.lfoFreq fs))
           phase := N.mod1 (N.add e.phase (N.div
             (max 0 (N.add e.base (N.mul (N.mul (N.sin e.lfoPhase) e.modWheel) e.modRange))) fs)) }))

/-- R136 corner (b): in the sample in which `Release` reaches `Off` the output is 0 under both settings of
`P_OFF_EARLY_EXIT`; by default both phases still advance, with the early exit `phase` is 0 and `lfoPhase`
stays. -/
def Obligations.SampleThatReachesOff : Prop :=
  ∀ (N : NumOps) (fs : V) (v : Voice), N.Lawful → v.state = .release → N.sub v.amp v.releaseRate ≤ 0 →
    renderVoice N true fs v = (0, { v with state := .off, amp := 0, phase := 0 }) ∧
    renderVoice N false fs v = (0, { v with
      state := .off, amp := 0
      phase := N.mod1 (N.div
        (max 0 (N.add v.base (N.mul (N.mul (N.sin v.lfoPhase) v.modWheel) v.modRange))) fs)
      lfoPhase := N.mod1 (N.add v.lfoPhase (N.div v.lfoFreq fs)) })

/-- R137: a rendered sample keeps the ranges of a voice, for every `base`, `modWheel`, `modRange` and
`lfoFreq`, with rates that need only be `≥ 0`; note control and rate setting touch neither `amp` nor the
phases. The number system is any within the laws of R8 in which sums of its values keep signs
(`NumOps.KeepsSigns`, all that R137 uses besides; log 26): `EXACT`, and finite formats that saturate and round. -/
def Obligations.RenderingKeepsVoiceRanges : Prop :=
  (∀ (N : NumOps) (early : Bool) (fs : V) (v : Voice), N.Lawful → N.KeepsSigns → v.Representable N →
    v.InRange → 0 ≤ v.sustain → v.sustain ≤ 1 → 0 ≤ v.attackRate → 0 ≤ v.decayRate →
    0 ≤ v.releaseRate → v.OffSilent →
    (renderVoice N early fs v).2.InRange ∧ (renderVoice N early fs v).2.OffSilent ∧
      (renderVoice N early fs v).2.sustain = v.sustain ∧
      (renderVoice N early fs v).2.attackRate = v.attackRate ∧
      (renderVoice N early fs v).2.decayRate = v.decayRate ∧
      (renderVoice N early fs v).2.releaseRate = v.releaseRate) ∧
  (∀ (N : NumOps) (v : Voice) (n : BitVec 7) (f fs x : V),
    ∀ u ∈ [voiceNoteOn n f v, voiceNoteOff v, voiceSetAttack N fs x v, voiceSetDecay N fs x v,
        voiceSetRelease N fs x v],
      u.amp = v.amp ∧ u.phase = v.phase ∧ u.lfoPhase = v.lfoPhase)

/-- R126 (corner cases): from amplitude `a` in `Attack` with a positive rate, the ramp rises by the rate
at each sample and reaches 1, with `Decay`, at sample `max(1, ceil((1 − a)/rate))` exactly. In `EXACT` (R9). -/
def Obligations.AttackReachesOneOnTime : Prop :=
  ∀ (v : Voice) (N : Nat), v.state = .attack → v.amp ≤ 1 → 0 < v.attackRate →
    N = max 1 ⌈(1 - v.amp) / v.attackRate⌉₊ →
    (∀ k < N, (envStep NumOps.exact)^[k] v = { v with amp := v.amp + k * v.attackRate }) ∧
    (envStep NumOps.exact)^[N] v = { v with amp := 1, state := .decay }

/-- R123, C1: the decay from 1 takes `(1 − sustain) · max(s, 0.001) · FS` samples, rounded up and at least
one, falls by the rate at each sample, and ends at the sustain level in `Sustain`. In `EXACT` (R9). -/
def Obligations.DecayReachesSustainOnTime : Prop :=
  ∀ (v : Voice) (fs sec : V) (N : Nat), v.state = .decay → v.amp = 1 → v.sustain ≤ 1 → 0 < fs →
    v.decayRate = rateOf NumOps.exact sec fs →
    N = max 1 ⌈(1 - v.sustain) * (max sec (1 / 1000) * fs)⌉₊ →
    (∀ k < N, (envStep NumOps.exact)^[k] v = { v with amp := 1 - k * v.decayRate }) ∧
    (envStep NumOps.exact)^[N] v = { v with amp := v.sustain, state := .sustain }

/-- R124, R129, C1: the release from amplitude `a` falls by the rate at each sample and reaches `Off`, with
`amp = 0` and `phase = 0`, at sample `max(1, ceil(a · max(s, 0.001) · FS))` exactly, not after the whole
release time. In `EXACT` (R9). -/
def Obligations.ReleaseReachesOffOnTime : Prop :=
  ∀ (v : Voice) (fs sec : V) (N : Nat), v.state = .release → 0 ≤ v.amp → 0 < fs →
    v.releaseRate = rateOf NumOps.exact sec fs →
    N = max 1 ⌈v.amp * (max sec (1 / 1000) * fs)⌉₊ →
    (∀ k < N, (envStep NumOps.exact)^[k] v = { v with amp := v.amp - k * v.releaseRate }) ∧
    (envStep NumOps.exact)^[N] v = { v with amp := 0, phase := 0, state := .off }

/-! ## The mixer and the reset -/

/-- R190: `TICK` renders every voice once and delivers the left fold of the outputs in ascending order
from 0, times `MIX_GAIN` (0.2), in the operations of the number system; it never reads the channel and writes
nothing else. -/
def Obligations.TickMixesEveryVoice : Prop :=
  ∀ (s : State) (N : NumOps), N = s.num → ∃ t, exec .tick s = .next t ∧
    t = { s with voices := t.voices, samples := t.samples } ∧
    (∀ i, t.voices.get i = (renderVoice N s.cfg.offEarlyExit s.fs (s.voices.get i)).2) ∧
    (∀ o : VoiceIx → V, (∀ i, o i = (renderVoice N s.cfg.offEarlyExit s.fs (s.voices.get i)).1) →
      t.samples = N.mul (N.add (N.add (N.add (N.add (N.add (N.add (N.add (N.add 0
        (o 0)) (o 1)) (o 2)) (o 3)) (o 4)) (o 5)) (o 6)) (o 7)) N.mixGain :: s.samples) ∧
    (s.cfg.num = .exact → N.mixGain = 1 / 5)

/-- R193, in `EXACT`: the sample lies in `[−1.6, 1.6)`, its magnitude is at most 0.2 times the sum of the
amplitudes, `−1.6` is reached, and with at most five voices not `Off` it stays within `[−1, 1]`. -/
def Obligations.SampleStaysInOutputRange : Prop :=
  (∀ s t : State, s.Ranges → s.cfg.num = .exact → exec .tick s = .next t →
    ∃ y, t.samples = y :: s.samples ∧ -8 / 5 ≤ y ∧ y < 8 / 5 ∧
      |y| ≤ 1 / 5 * (t.voices.toList.map Voice.amp).sum ∧
      ((s.voices.toList.filter fun v => !inState .off v).length ≤ 5 → |y| ≤ 1)) ∧
  (∃ s t : State, s.Inv ∧ s.cfg.num = .exact ∧ exec .tick s = .next t ∧
    t.samples = (-8 / 5) :: s.samples)

/-- R45: while every voice is `Off`, a `TICK` delivers exactly 0 and changes no register, and only a
`NOTE_ON` can end that. -/
def Obligations.SilentUntilNoteOn : Prop :=
  ∀ s : State, (∀ i, (s.voices.get i).state = .off) →
    exec .tick s = .next { s with samples := 0 :: s.samples } ∧
    ∀ (i : Instr) (t : State), exec i s = .next t → (∀ n f, i ≠ .noteOn n f) →
      ∀ j, (t.voices.get j).state = .off

/-- R45, R194: `RESET fs` with `fs > 0`, `fs` and the two reset values representable, writes `FS`, all 13 registers of all 8
voices and the channel; the rates are the formula of R122 in the operations of the number system, and in
`EXACT` the constants and quotients of R45. That it also ends a drain in progress, and leaves the parameters,
the schedule and the records of results and samples, is the model's (log 8). -/
def Obligations.ResetWritesEveryRegister : Prop :=
  ∀ (fs : V) (s : State) (N : NumOps), N = s.num → 0 < fs →
    N.mem fs = true → N.mem s.cfg.modWheelReset = true → N.mem s.cfg.lfoFreqReset = true →
    ∃ t, exec (.reset fs) s = .next t ∧
      t = { s with voices := t.voices, fs := fs, chan := [], draining := false } ∧
      (∀ i, t.voices.get i =
        { state := .off, amp := 0
          attackRate := N.div 1 (N.mul (max N.tenth N.minTime) fs)
          decayRate := N.div 1 (N.mul (max N.tenth N.minTime) fs)
          releaseRate := N.div 1 (N.mul (max N.releaseReset N.minTime) fs)
          sustain := N.sustainReset, modRange := 20
          lfoFreq := s.cfg.lfoFreqReset, modWheel := s.cfg.modWheelReset
          phase := 0, lfoPhase := 0, note := 0, base := 0 }) ∧
      (s.cfg.num = .exact → ∀ i,
        (t.voices.get i).attackRate = 10 / fs ∧ (t.voices.get i).decayRate = 10 / fs ∧
          (t.voices.get i).releaseRate = 10 / (3 * fs) ∧ (t.voices.get i).sustain = 7 / 10)

/-- The state after reset is what `RESET 44100` leaves of itself (44100 Hz is the model's choice, log 4), its
number system is `EXACT`, the reference profile of R5 (log 1), and it meets the invariant, the range contract
and the representability of its values. -/
def Obligations.ResetStateIsResetAndSafe : Prop :=
  exec (.reset 44100) State.reset = .next State.reset ∧ State.reset.cfg.num = .exact ∧
    State.reset.Inv ∧ State.reset.InContract ∧ State.reset.Representable

/-! ## The drain and the channel -/

/-- R191, R14: `DRAIN` puts the engine into its pop loop; the loop's iterations are steps of their own
(log 7). -/
def Obligations.DrainStartsPopLoop : Prop :=
  ∀ s : State, exec .drain s = .next { s with draining := true }

/-- R191, R64, R74: a `DRAIN` with no push in between executes every queued word once, in queue order, and
leaves the channel empty and the engine free: one step for the request, one per word, and the pop that
finds the channel empty. The schedule is the model's (log 6), and so are the request's own step and the wait
of the driver's requests, which the count of steps rests on (log 7). -/
def Obligations.DrainExecutesQueueInOrder : Prop :=
  ∀ (s : State) (rest : List Input), s.draining = false → s.pending = .request 1 :: rest →
    ({ s with inputs := rest } : State).drainsAlone = true →
    ∃ t, execWords s.chan { s with chan := [], draining := true, inputs := rest } = some t ∧
      steps (s.chan.length + 2) s = some { t with draining := false } ∧ t.chan = []

/-- R191 corner (b), R66: words pushed during a drain, before the pop that finds the channel empty, are
executed in this drain, after the words queued before them. For any queue and any schedule `l` of pops and
pushes with room in which no pop finds the channel empty, after which the drain goes on by itself: the drain
executes the queued words and then the pushed ones, each once and in order, and ends with an empty channel.
The schedule is the model's (log 6), and so are the steps a drain consists of (log 7) and the recorded answers
(log 9). -/
def Obligations.WordPushedDuringDrainIsExecutedInIt : Prop :=
  ∀ (s : State) (l rest : List Input), s.draining = true → s.inputs = l ++ rest →
    drainSchedule s.cfg s.chan.length l = true →
    ({ s with inputs := rest } : State).drainsAlone = true →
    ∃ u, execWords (s.chan ++ pushedWords l) { s with chan := [], inputs := rest } = some u ∧
      steps (s.chan.length + 2 * (pushedWords l).length + 1) s =
        some { u with draining := false, results := pushedResults l s.results } ∧
      u.chan = []

/-- R61, R63: `ChPush` appends the word at the tail and answers `ok` if there is room, always so with
`CH_CAP = ∞`; else it answers `full`, and the channel is unchanged. The answer goes to the caller; nothing
else changes. -/
def Obligations.PushAppendsOrAnswersFull : Prop :=
  ∀ (s : State) (p : Nat) (w : CmdWord) (rest : List Input), p < s.cfg.nProd →
    s.pending = .push p w :: rest →
    ((∀ n, s.cfg.chCap = some n → s.chan.length < n) →
      step s = .next { s with
        inputs := rest, chan := s.chan ++ [w], results := (p, .ok) :: s.results }) ∧
    ((∃ n, s.cfg.chCap = some n ∧ n ≤ s.chan.length) →
      step s = .next { s with inputs := rest, results := (p, .full) :: s.results })

/-- R62, R64, R74: the channel is first-in first-out in every step: it stays, loses its oldest word, gains
one word at the tail, or is emptied by a `RESET`, which comes to a free engine only (log 8). -/
def Obligations.ChannelIsFirstInFirstOut : Prop :=
  ∀ s t : State, step s = .next t →
    t.chan = s.chan ∨ (∃ w, s.chan = w :: t.chan) ∨ (∃ w, t.chan = s.chan ++ [w]) ∨
      (t.chan = [] ∧ s.draining = false ∧ ∃ fs rest, s.pending = .reset fs :: rest)

/-- R44, R65: a producer's step, a push or a MIDI message, touches no voice register, not `FS`, no sample,
no parameter and no drain: only the channel, the schedule and the answer to the caller. -/
def Obligations.ProducersTouchOnlyTheChannel : Prop :=
  ∀ s t : State, (∃ x ∈ s.pending.head?, x.byProducer = true) → step s = .next t →
    t.voices = s.voices ∧ t.fs = s.fs ∧ t.samples = s.samples ∧ t.draining = s.draining ∧
      t.cfg = s.cfg ∧ t.inputs = s.pending.tail ∧ t.repeats = s.repeats ∧
      (t.chan = s.chan ∨ ∃ w, t.chan = s.chan ++ [w])

/-- R66: no event takes effect between two `TICK`s. In a run of producers' steps and `TICK`s without a
`DRAIN`, the voices and the samples are those of the run with the producers' steps left out. The schedule, on
which both runs are written, is the model's (log 6). -/
def Obligations.NoEventTakesEffectWithoutDrain : Prop :=
  ∀ (s : State) (l : List Input), s.draining = false → s.inputs = l →
    (∀ x ∈ l, x.byProducer = true ∨ x = .request 0) → (∀ x ∈ l, x.admitted s.cfg = true) →
    ∃ t u, steps l.length s = some t ∧
      steps (l.filter fun x => !x.byProducer).length
        { s with inputs := l.filter fun x => !x.byProducer } = some u ∧
      t.voices = u.voices ∧ t.samples = u.samples ∧ t.fs = u.fs

/-! ## The MIDI front end -/

/-- R211, R212, R213: each MIDI form pushes exactly the one command it stands for, for every channel,
a `NOTE_ON` with velocity 0 as a note-off and with every other velocity alike; nothing else changes. -/
def Obligations.MidiFormsPushOneCommand : Prop :=
  ∀ (ch : BitVec 4) (n x : BitVec 7) (s : State),
    (x ≠ 0 → ∃ w, encode (.noteOn n (wire (noteFreq n))) = .cw w ∧
      decodeCW w = .noteOn n (wire (noteFreq n)) ∧
      exec (.midiNoteOn ch n x) s = .next (s.pushWord s.producer w)) ∧
    (∃ w, encode (.noteOff n) = .cw w ∧ decodeCW w = .noteOff n ∧
      exec (.midiNoteOn ch n 0) s = .next (s.pushWord s.producer w) ∧
      exec (.midiNoteOff ch n x) s = .next (s.pushWord s.producer w)) ∧
    (∃ w, encode (.controlChange n x) = .cw w ∧ decodeCW w = .controlChange n x ∧
      exec (.midiCc ch n x) s = .next (s.pushWord s.producer w)) ∧
    (∀ w, (∀ m, s.cfg.chCap = some m → s.chan.length < m) → s.pushWord s.producer w =
      { s with chan := s.chan ++ [w], results := (s.producer, .ok) :: s.results }) ∧
    (∀ w, (∃ m, s.cfg.chCap = some m ∧ m ≤ s.chan.length) → s.pushWord s.producer w =
      { s with results := (s.producer, .full) :: s.results })

/-- R215: the payload of every note is the multiple of `1/65536` nearest to `440 · 2^((n−69)/12)`, the real
number. -/
def Obligations.NoteFreqIsNearestToFormula : Prop :=
  ∀ n : BitVec 7,
    |((wire (noteFreq n) : V) : ℝ) - 440 * (2 : ℝ) ^ (((n.toNat : ℝ) - 69) / 12)| < 1 / 131072

/-- R102 (c): a MIDI form is a pseudo-instruction: the word it pushes is the encoding of its expansion. -/
def Obligations.MidiFormsAreTheirExpansion : Prop :=
  ∀ (ch : BitVec 4) (n x : BitVec 7) (s : State),
    ∀ i ∈ [Instr.midiNoteOn ch n x, .midiNoteOff ch n x, .midiCc ch n x],
      ∃ w, encode (expand i) = .cw w ∧ exec i s = .next (s.pushWord s.producer w)

/-- R101: the assembler's rounding goes to the nearest multiple of `1/65536`, ties to the even multiple. -/
def Obligations.AssemblerRoundsToNearestEven : Prop :=
  ∀ r : V, ∃ k : Int, assembleValue r = (k : V) / 65536 ∧
    |r - assembleValue r| ≤ 1 / 131072 ∧
    (|r - assembleValue r| = 1 / 131072 → k % 2 = 0)

/-! ## Whole-machine rules -/

/-- R37 (a) to (c), R38, R39, R42: every step keeps the invariant, for every schedule. The premises on the number
system are what the derivation of R37 uses besides the laws of R8 (log 26): sums of its values keep signs, and no
rate rounds to 0. `EXACT` has both, and so can a finite format that saturates; a system in which a rate can round to 0 is
`StepKeepsRanges`'s. -/
def Obligations.StepKeepsInvariant : Prop :=
  ∀ s t : State, s.num.KeepsSigns → s.num.PositiveRates → s.Representable → s.Inv → step s = .next t → t.Inv

/-- R37 (d), R270: while the host keeps the range contract, `modRange ≥ 0` and `lfoFreq > 0` hold and stay,
as does the contract of the words still queued, in every number system: a payload is the value that `wire` makes
of its pattern (R12). In `EXACT` the words a MIDI front end pushes always keep the contract. -/
def Obligations.ContractKeepsModulationRanges : Prop :=
  (∀ s t : State, s.cfg.wellFormed = true → s.InContract → step s = .next t → t.InContract) ∧
  (∀ (p : Nat) (m : MidiMsg), (Input.midi p m).inContract .exact = true)

/-- R22 to R34: who writes what. An instruction changes a register of a voice only if it is one of the
writers that register's rule names. -/
def Obligations.RegistersHaveOnlyTheirWriters : Prop :=
  ∀ (i : Instr) (s t : State) (j : VoiceIx), exec i s = .next t → (∀ fs, i ≠ .reset fs) →
    ((∀ n f, i ≠ .noteOn n f) →
      (t.voices.get j).note = (s.voices.get j).note ∧ (t.voices.get j).base = (s.voices.get j).base) ∧
    (i ≠ .tick →
      (t.voices.get j).phase = (s.voices.get j).phase ∧
      (t.voices.get j).lfoPhase = (s.voices.get j).lfoPhase ∧
      (t.voices.get j).amp = (s.voices.get j).amp) ∧
    (i ≠ .tick → (∀ n f, i ≠ .noteOn n f) → (∀ n, i ≠ .noteOff n) →
      (t.voices.get j).state = (s.voices.get j).state) ∧
    ((s.cfg.wireAdsr = false ∨ ∀ x, i ≠ .paramAttack x) →
      (t.voices.get j).attackRate = (s.voices.get j).attackRate) ∧
    ((s.cfg.wireAdsr = false ∨ ∀ x, i ≠ .paramDecay x) →
      (t.voices.get j).decayRate = (s.voices.get j).decayRate) ∧
    ((s.cfg.wireAdsr = false ∨ ∀ x, i ≠ .paramRelease x) →
      (t.voices.get j).releaseRate = (s.voices.get j).releaseRate) ∧
    ((s.cfg.wireAdsr = false ∨ ∀ x, i ≠ .paramSustain x) →
      (t.voices.get j).sustain = (s.voices.get j).sustain) ∧
    ((∀ x, i ≠ .controlChange 1 x) → (t.voices.get j).modWheel = (s.voices.get j).modWheel) ∧
    ((∀ x, i ≠ .paramModRange x) → (t.voices.get j).modRange = (s.voices.get j).modRange) ∧
    ((∀ x, i ≠ .paramLfoFreq x) → (t.voices.get j).lfoFreq = (s.voices.get j).lfoFreq)

/-- R35, R43: no instruction but `RESET` changes `FS`, and only `TICK` delivers a sample. That an instruction
leaves the parameters (log 3), the schedule (log 6) and the producer's label (log 10) is the model's. -/
def Obligations.SampleRateIsWrittenOnlyByReset : Prop :=
  ∀ (i : Instr) (s t : State), exec i s = .next t →
    ((∀ fs, i ≠ .reset fs) → t.fs = s.fs) ∧ (i ≠ .tick → t.samples = s.samples) ∧
      t.cfg = s.cfg ∧ t.inputs = s.inputs ∧ t.repeats = s.repeats ∧ t.producer = s.producer

/-- R129, R130: the only transition into `Off` of a running engine is the `Release` arm of a `TICK`; and
only a `NOTE_ON` starts a voice that is `Off`. -/
def Obligations.OnlyReleaseReachesOff : Prop :=
  ∀ (i : Instr) (s t : State) (j : VoiceIx), exec i s = .next t →
    ((s.voices.get j).state ≠ .off → (t.voices.get j).state = .off →
      (i = .tick ∧ (s.voices.get j).state = .release ∧
        s.num.sub (s.voices.get j).amp (s.voices.get j).releaseRate ≤ 0) ∨ ∃ fs, i = .reset fs) ∧
    ((s.voices.get j).state = .off → (t.voices.get j).state ≠ .off →
      (∃ n f, i = .noteOn n f) ∧ (t.voices.get j).state = .attack)

/-- R192, R102 (b): `BUFFER n` on a free engine first executes every queued word in order, delivering no sample,
and then delivers exactly `n` samples. After `chan.length + 2` steps the words are executed, the channel is
empty, no drain is in progress, the `n` requests are still to come and the samples are those of before; the `n`
steps after that add `n` samples. That a request waits for the end of the drain, and the steps a drain consists
of, are the model's (log 7), as is the schedule (log 6); its next action after the buffer must not be a push
or a mark of the engine, which matters for `n = 0` only. -/
def Obligations.BufferDrainsThenDeliversSamples : Prop :=
  ∀ (s : State) (n : Nat), s.draining = false → s.inputs = buffer n →
    ({ s with inputs := tickTimes n } : State).drainsAlone = true →
    ∃ t u l,
      execWords s.chan { s with chan := [], draining := true, inputs := tickTimes n } = some t ∧
      steps (s.chan.length + 2) s = some { t with draining := false } ∧
      t.chan = [] ∧ t.samples = s.samples ∧ t.inputs = tickTimes n ∧
      steps n { t with draining := false } = some u ∧
      steps (s.chan.length + 2 + n) s = some u ∧
      u.inputs = [] ∧ u.chan = [] ∧ u.draining = false ∧ u.samples = l ++ s.samples ∧ l.length = n

/-- R264, R191: a drain ends when producers push only finitely many words during it. If the finite part of the
schedule holds `n` actions of producers, all of producers that exist, and what comes round and round for ever
holds none, then within `chan.length + 2·n + 1` steps the pop that finds the channel empty has ended the drain.
The schedule and the count of steps are the model's (logs 6, 7). -/
def Obligations.DrainEndsUnderFinitelyManyPushes : Prop :=
  ∀ s : State, s.draining = true →
    (∀ x ∈ s.inputs, x.byProducer = true → x.admitted s.cfg = true) →
    (∀ x ∈ s.repeats, x.byProducer = false) →
    ∃ k t, k ≤ s.chan.length + 2 * (s.inputs.filter Input.byProducer).length + 1 ∧
      steps k s = some t ∧ t.draining = false ∧ t.chan = []

/-- R191 corner (c), R241: the one infinite behaviour. If a producer pushes a word before every pop, for ever,
the drain does not end, whatever the channel holds and however small its capacity. The schedule is the
model's (log 6). -/
def Obligations.EndlessPushesKeepDrainOpen : Prop :=
  ∀ (s : State) (p : Nat) (w : CmdWord), s.draining = true → s.inputs = [] →
    s.repeats = [.push p w, .engine] → p < s.cfg.nProd → s.cfg.chCap ≠ some 0 →
    ∀ k, ∃ t, steps k s = some t ∧ t.draining = true

/-! ## The number system -/

/-- R8, R95, R163: every number system the machine can have keeps the laws N1 to N5 (N5 is the form of `NumOps`; the
two zero laws of the left operand and the exact integer constants are DEDUCED, log 1), converts `0..127` exactly and
keeps `v/127` in `[0, 1]` with its ends exact; and every system that keeps them is left as it is by the
bringing within the laws, so that none of them is shut out. -/
def Obligations.NumberSystemsSatisfyLaws : Prop :=
  (∀ sys : NumSystem, (numOps sys).Lawful) ∧
  (∀ N : NumOps, N.Lawful → N.toLawful = N) ∧
  (∀ a b : V, (a ≤ b ∨ b ≤ a) ∧ a ≤ maxV a b ∧ b ≤ maxV a b ∧ (maxV a b = a ∨ maxV a b = b))

/-- R9: in the reference profile every rational is a value, the operations are those of ℚ, and the constants
are the decimals of R5. -/
def Obligations.ExactProfileIsRationalArithmetic : Prop :=
  ∀ s : State, s.cfg.num = .exact →
    (∀ x y : V, s.num.mem x = true ∧ s.num.add x y = x + y ∧ s.num.sub x y = x - y ∧
      s.num.mul x y = x * y ∧ s.num.div x y = x / y ∧ s.num.mod1 x = x - (⌊x⌋ : V) ∧
      s.num.sin x = sinq x ∧ s.num.ofWire x = x) ∧
    (∀ n : BitVec 7, s.num.ofInt n = (n.toNat : V)) ∧
    s.num.two = 2 ∧ s.num.minTime = 1 / 1000 ∧ s.num.tenth = 1 / 10 ∧ s.num.mixGain = 1 / 5 ∧
    s.num.releaseReset = 3 / 10 ∧ s.num.sustainReset = 7 / 10 ∧ s.num.modRangeReset = 20 ∧
    s.num.ccScale = 127 ∧ s.num.Lawful ∧ s.num.KeepsSigns ∧ s.num.PositiveRates

/-- R8, R21: every register of type `V` holds a value of the number system, and so does every sample
delivered; every step keeps that, for every schedule. -/
def Obligations.RegistersStayRepresentable : Prop :=
  ∀ s t : State, s.Representable → step s = .next t → t.Representable

/-- R37 with "rates ≥ 0" as quoted there, R38, R39, R42: every step keeps the ranges, for every schedule, in every
number system in which sums of its values keep signs and no rate is negative (log 26). A rate may round to 0, so
finite formats that saturate and round are among them. -/
def Obligations.StepKeepsRanges : Prop :=
  ∀ s t : State, s.num.KeepsSigns → s.num.NonnegRates → s.Representable → s.Ranges → step s = .next t → t.Ranges
end

