-- ==== Sys2Proof/Laws/Decode.lean ====
section
/-! SUPPORT. Laws of the fields of a command word and of the payload format. -/

namespace Sys2Proof

/-- `unwire` undoes `wire` (R12). -/
theorem unwire_wire (b : BitVec 32) : unwire (wire b) = b := by
  unfold unwire wire
  rw [div_mul_cancel₀ _ (by norm_num : (65536 : V) ≠ 0)]
  have : ((b.toInt : V)).floor = b.toInt := Int.floor_intCast (R := ℚ) b.toInt
  rw [this, BitVec.ofInt_toInt]

/-- What `onGrid` says: an integer multiple of `1/65536` in range (R12). -/
theorem onGrid_iff (f : V) :
    onGrid f = true ↔ ∃ k : Int, f * 65536 = (k : V) ∧ -2 ^ 31 ≤ k ∧ k < 2 ^ 31 := by
  unfold onGrid
  simp only [Bool.and_eq_true, beq_iff_eq, decide_eq_true_eq]
  constructor
  · rintro ⟨⟨hd, hl⟩, hu⟩
    have hk : f * 65536 = ((f * 65536).num : V) := by
      exact ((Rat.den_eq_one_iff _).1 hd).symm
    refine ⟨(f * 65536).num, hk, ?_, ?_⟩
    · have : ((-2 ^ 31 : Int) : V) ≤ ((f * 65536).num : V) := by rw [← hk]; push_cast; linarith
      exact_mod_cast this
    · have : ((f * 65536).num : V) < ((2 ^ 31 : Int) : V) := by rw [← hk]; push_cast; linarith
      exact_mod_cast this
  · rintro ⟨k, hk, hl, hu⟩
    have hl' : ((-2 ^ 31 : Int) : V) ≤ (k : V) := by exact_mod_cast hl
    have hu' : (k : V) < ((2 ^ 31 : Int) : V) := by exact_mod_cast hu
    push_cast at hl' hu'
    refine ⟨⟨by rw [hk]; simp, ?_⟩, ?_⟩ <;> linarith

/-- `wire` undoes `unwire` on the grid (R12). -/
theorem wire_unwire {f : V} (h : onGrid f = true) : wire (unwire f) = f := by
  obtain ⟨k, hk, hl, hu⟩ := (onGrid_iff f).1 h
  have hf : (f * 65536).floor = k := by rw [hk]; exact Int.floor_intCast (R := ℚ) k
  unfold wire unwire
  rw [hf, BitVec.toInt_ofInt, Int.bmod_eq_of_le (by norm_num; linarith) (by norm_num; linarith)]
  rw [← hk]; field_simp

/-- Every payload pattern denotes a value on the grid (R12). -/
theorem onGrid_wire (b : BitVec 32) : onGrid (wire b) = true := by
  rw [onGrid_iff]
  refine ⟨b.toInt, by unfold wire; field_simp, ?_, ?_⟩
  · have := BitVec.le_toInt b; simpa using this
  · have := BitVec.toInt_lt (x := b); simpa using this

section Fields
variable (op a b z : BitVec 8) (v : BitVec 32)

theorem cwWord_op : (cwWord op a b z v).extractLsb' 56 8 = op := by
  change BitVec.extractLsb' 56 8 (op ++ a ++ b ++ z ++ v) = op
  apply BitVec.eq_of_getLsbD_eq
  intro i hi
  simp only [BitVec.getLsbD_extractLsb', BitVec.getLsbD_append]
  interval_cases i <;> simp

theorem cwWord_a : (cwWord op a b z v).extractLsb' 48 8 = a := by
  change BitVec.extractLsb' 48 8 (op ++ a ++ b ++ z ++ v) = a
  apply BitVec.eq_of_getLsbD_eq
  intro i hi
  simp only [BitVec.getLsbD_extractLsb', BitVec.getLsbD_append]
  interval_cases i <;> simp

theorem cwWord_b : (cwWord op a b z v).extractLsb' 40 8 = b := by
  change BitVec.extractLsb' 40 8 (op ++ a ++ b ++ z ++ v) = b
  apply BitVec.eq_of_getLsbD_eq
  intro i hi
  simp only [BitVec.getLsbD_extractLsb', BitVec.getLsbD_append]
  interval_cases i <;> simp

theorem cwWord_z : (cwWord op a b z v).extractLsb' 32 8 = z := by
  change BitVec.extractLsb' 32 8 (op ++ a ++ b ++ z ++ v) = z
  apply BitVec.eq_of_getLsbD_eq
  intro i hi
  simp only [BitVec.getLsbD_extractLsb', BitVec.getLsbD_append]
  interval_cases i <;> simp

theorem cwWord_v : (cwWord op a b z v).extractLsb' 0 32 = v := by
  change BitVec.extractLsb' 0 32 (op ++ a ++ b ++ z ++ v) = v
  apply BitVec.eq_of_getLsbD_eq
  intro i hi
  simp only [BitVec.getLsbD_extractLsb', BitVec.getLsbD_append]
  interval_cases i <;> simp

/-- The decoder on a word given by its fields (R97). -/
theorem decodeCW_cwWord : decodeCW (cwWord op a b z v) =
    if z ≠ 0 then .nop
    else if op = 0x01 ∧ a.msb = false ∧ b = 0 then .noteOn (a.extractLsb' 0 7) (wire v)
    else if op = 0x02 ∧ a.msb = false ∧ b = 0 ∧ v = 0 then .noteOff (a.extractLsb' 0 7)
    else if op = 0x03 ∧ a ≤ 0x05 ∧ b = 0 then paramInstr a (wire v)
    else if op = 0x04 ∧ a.msb = false ∧ b.msb = false ∧ v = 0 then
      .controlChange (a.extractLsb' 0 7) (b.extractLsb' 0 7)
    else .nop := by
  unfold decodeCW
  simp only [cwWord_op, cwWord_a, cwWord_b, cwWord_z, cwWord_v]

/-- Every word is given by its fields (R91). -/
theorem cwWord_of_fields (w : CmdWord) :
    cwWord (w.extractLsb' 56 8) (w.extractLsb' 48 8) (w.extractLsb' 40 8) (w.extractLsb' 32 8)
      (w.extractLsb' 0 32) = w := by
  change w.extractLsb' 56 8 ++ w.extractLsb' 48 8 ++ w.extractLsb' 40 8 ++ w.extractLsb' 32 8 ++
    w.extractLsb' 0 32 = w
  apply BitVec.eq_of_getLsbD_eq
  intro i hi
  simp only [BitVec.getLsbD_extractLsb', BitVec.getLsbD_append]
  interval_cases i <;> simp

end Fields

/-- Bit 7 of a seven-bit operand's field is zero (R95). -/
theorem byte7_msb (n : BitVec 7) : (byte7 n).msb = false := by
  change (0#1 ++ n).msb = false
  rw [BitVec.msb_append]; simp

/-- The low bits of the field are the operand (R95). -/
theorem byte7_low (n : BitVec 7) : (byte7 n).extractLsb' 0 7 = n := by
  change BitVec.extractLsb' 0 7 (0#1 ++ n) = n
  apply BitVec.eq_of_getLsbD_eq
  intro i hi
  simp only [BitVec.getLsbD_extractLsb', BitVec.getLsbD_append]
  interval_cases i <;> simp

/-- A field with bit 7 zero is that of its low bits (R95). -/
theorem byte7_of_low (a : BitVec 8) (h : a.msb = false) : byte7 (a.extractLsb' 0 7) = a := by
  change 0#1 ++ a.extractLsb' 0 7 = a
  apply BitVec.eq_of_getLsbD_eq
  intro i hi
  rw [BitVec.msb_eq_getLsbD_last] at h
  simp only [BitVec.getLsbD_extractLsb', BitVec.getLsbD_append]
  interval_cases i <;> simp_all

theorem decodeCW_noteOnWord (n : BitVec 7) (v : BitVec 32) :
    decodeCW (noteOnWord n v) = .noteOn n (wire v) := by
  simp [noteOnWord, decodeCW_cwWord, byte7_msb, byte7_low]

theorem decodeCW_noteOffWord (n : BitVec 7) : decodeCW (noteOffWord n) = .noteOff n := by
  simp [noteOffWord, decodeCW_cwWord, byte7_msb, byte7_low]

theorem decodeCW_controlChangeWord (c v : BitVec 7) :
    decodeCW (controlChangeWord c v) = .controlChange c v := by
  simp [controlChangeWord, decodeCW_cwWord, byte7_msb, byte7_low]

end Sys2Proof
end

