-- ==== Sys2Proof/Laws/Values.lean ====
section
/-! SUPPORT. The laws of `NUM` that the rules rest on (spec/00_scope.md R8 N1 to N4): what each operation of `EXACT` is,
that `EXACT` and every system the machine can have keep the laws, and what follows from the laws. -/

namespace Sys2Proof.Machine

/-! ## Order -/

theorem maxV_eq_max (a b : V) : maxV a b = max a b := rfl

theorem minV_eq_min (a b : V) : minV a b = min a b := rfl

theorem clamp01 (x : V) : 0 ≤ maxV 0 (minV x 1) ∧ maxV 0 (minV x 1) ≤ 1 := by
  rw [maxV_eq_max, minV_eq_min]
  exact ⟨le_max_left _ _, max_le zero_le_one (min_le_right _ _)⟩

/-! ## The operations of `EXACT` -/

/-- `mod1` is the floor modulus (R11). -/
theorem mod1_eq_fract (x : V) : mod1 x = Int.fract x := rfl

theorem mod1_nonneg (x : V) : 0 ≤ mod1 x := by rw [mod1_eq_fract]; exact Int.fract_nonneg x

theorem mod1_lt_one (x : V) : mod1 x < 1 := by rw [mod1_eq_fract]; exact Int.fract_lt_one x

/-- (S1) of R10. -/
theorem sinq_range (p : V) : -1 ≤ sinq p ∧ sinq p ≤ 1 := by
  unfold sinq
  repeat' split
  all_goals first
    | (rw [maxV_eq_max, minV_eq_min]
       exact ⟨le_max_left _ _, max_le (by norm_num) (min_le_right _ _)⟩)
    | norm_num

/-- `value/127` lies in `[0, 1]` (R163, R37 c). -/
theorem ofInt_div_range (n : BitVec 7) : 0 ≤ ofInt n / 127 ∧ ofInt n / 127 ≤ 1 := by
  have h : (n.toNat : V) ≤ 127 := by exact_mod_cast (by omega : n.toNat ≤ 127)
  unfold ofInt
  constructor
  · positivity
  · rw [div_le_one (by norm_num)]; exact h

/-- The integers `0..127` (R95). -/
theorem isSmallInt_natCast (n : BitVec 7) : isSmallInt (n.toNat : V) = true := by
  have h : (n.toNat : V) ≤ 127 := by exact_mod_cast (by omega : n.toNat ≤ 127)
  simp [isSmallInt, h]

theorem isSmallInt_iff (x : V) : isSmallInt x = true ↔ ∃ n : BitVec 7, x = (n.toNat : V) := by
  constructor
  · simp only [isSmallInt, Bool.and_eq_true, beq_iff_eq, decide_eq_true_eq]
    rintro ⟨⟨hd, h0⟩, h1⟩
    have hx : x = (x.num : V) := ((Rat.den_eq_one_iff _).1 hd).symm
    have hn0 : 0 ≤ x.num := Rat.num_nonneg.2 h0
    have hn1 : x.num ≤ 127 := by rw [hx] at h1; exact_mod_cast h1
    refine ⟨BitVec.ofNat 7 x.num.toNat, ?_⟩
    have ht : (BitVec.ofNat 7 x.num.toNat).toNat = x.num.toNat := by
      rw [BitVec.toNat_ofNat]; exact Nat.mod_eq_of_lt (by omega)
    rw [ht]
    have hc : ((x.num.toNat : Int) : V) = (x.num : V) := by rw [Int.toNat_of_nonneg hn0]
    exact hx.trans (by exact_mod_cast hc.symm)
  · rintro ⟨n, rfl⟩
    exact isSmallInt_natCast n

end Sys2Proof.Machine

namespace Sys2Proof

open Machine

@[simp] theorem NumOps.exact_mem (x : V) : NumOps.exact.mem x = true := rfl
@[simp] theorem NumOps.exact_add (x y : V) : NumOps.exact.add x y = x + y := rfl
@[simp] theorem NumOps.exact_sub (x y : V) : NumOps.exact.sub x y = x - y := rfl
@[simp] theorem NumOps.exact_mul (x y : V) : NumOps.exact.mul x y = x * y := rfl
@[simp] theorem NumOps.exact_div (x y : V) : NumOps.exact.div x y = x / y := rfl
@[simp] theorem NumOps.exact_mod1 (x : V) : NumOps.exact.mod1 x = Machine.mod1 x := rfl
@[simp] theorem NumOps.exact_sin (x : V) : NumOps.exact.sin x = sinq x := rfl
@[simp] theorem NumOps.exact_ofWire (x : V) : NumOps.exact.ofWire x = x := rfl
@[simp] theorem NumOps.exact_ofInt (n : BitVec 7) : NumOps.exact.ofInt n = (n.toNat : V) := rfl
@[simp] theorem NumOps.exact_two : NumOps.exact.two = 2 := rfl
@[simp] theorem NumOps.exact_minTime : NumOps.exact.minTime = 1 / 1000 := rfl
@[simp] theorem NumOps.exact_tenth : NumOps.exact.tenth = 1 / 10 := rfl
@[simp] theorem NumOps.exact_mixGain : NumOps.exact.mixGain = 1 / 5 := rfl
@[simp] theorem NumOps.exact_releaseReset : NumOps.exact.releaseReset = 3 / 10 := rfl
@[simp] theorem NumOps.exact_sustainReset : NumOps.exact.sustainReset = 7 / 10 := rfl
@[simp] theorem NumOps.exact_modRangeReset : NumOps.exact.modRangeReset = 20 := rfl
@[simp] theorem NumOps.exact_ccScale : NumOps.exact.ccScale = 127 := rfl

/-- `EXACT` keeps the laws of R8. -/
theorem NumOps.exact_lawful : NumOps.exact.Lawful where
  zero_mem := rfl
  one_mem := rfl
  add_zero x _ := by simp
  zero_add x _ := by simp
  mul_zero x := by simp
  zero_mul x := by simp
  mul_one x _ := by simp
  mod1_range x := ⟨mod1_nonneg x, mod1_lt_one x⟩
  ofInt_eq _ := rfl
  two_eq := rfl
  modRangeReset_eq := rfl
  ccScale_eq := rfl
  wheel_range n := ofInt_div_range n
  wheel_zero := by simp
  wheel_full := by norm_num
  sin_range p _ _ := sinq_range p
  add_mem _ _ := rfl
  sub_mem _ _ := rfl
  mul_mem _ _ := rfl
  div_mem _ _ := rfl
  mod1_mem _ := rfl
  sin_mem _ := rfl
  ofWire_mem _ := rfl
  ofInt_mem _ := rfl
  const_mem _ _ := rfl

theorem NumOps.exact_keepsSigns : NumOps.exact.KeepsSigns where
  add_nonneg x y _ _ hx hy := by rw [NumOps.exact_add]; positivity
  sub_le x y _ _ _ hy := by simpa using hy

/-- Every rate of `EXACT` is positive when `FS > 0` (R28, R37 b). -/
theorem NumOps.exact_positiveRates : NumOps.exact.PositiveRates where
  sustainReset_range := by norm_num
  rate_pos s fs _ _ hf := by
    have : (0 : V) < max s (1 / 1000) := lt_max_of_lt_right (by norm_num)
    simp only [rateOf, NumOps.exact_div, NumOps.exact_mul, NumOps.exact_minTime, maxV_eq_max]
    positivity

/-- A system in which no rate rounds to 0 has no negative rate. -/
theorem NumOps.PositiveRates.nonneg {N : NumOps} (h : N.PositiveRates) : N.NonnegRates where
  sustainReset_range := h.sustainReset_range
  rate_nonneg s fs hs hf h0 := (h.rate_pos s fs hs hf h0).le

theorem NumOps.isValue_ofInt (N : NumOps) (n : BitVec 7) : N.isValue (n.toNat : V) = true := by
  simp [NumOps.isValue, isSmallInt_natCast]

theorem NumOps.isValue_zero (N : NumOps) : N.isValue 0 = true := by
  rw [NumOps.isValue, show isSmallInt 0 = true by decide]; rfl

theorem NumOps.isValue_one (N : NumOps) : N.isValue 1 = true := by
  rw [NumOps.isValue, show isSmallInt 1 = true by decide]; rfl

theorem NumOps.isValue_toValue (N : NumOps) (x : V) : N.isValue (N.toValue x) = true := by
  unfold NumOps.toValue
  split
  · assumption
  · exact N.isValue_zero

theorem NumOps.isValue_wheelDepth (N : NumOps) (x : V) : N.isValue (N.wheelDepth x) = true := by
  unfold NumOps.wheelDepth
  split; · exact N.isValue_zero
  split; · exact N.isValue_one
  split; · exact N.isValue_toValue _
  · exact N.isValue_zero

theorem NumOps.wheelDepth_range (N : NumOps) (x : V) : 0 ≤ N.wheelDepth x ∧ N.wheelDepth x ≤ 1 := by
  unfold NumOps.wheelDepth NumOps.toValue
  split; · norm_num
  split; · norm_num
  split
  · next h => split <;> [exact h; norm_num]
  · norm_num

/-- `toLawful` answers a system within the laws, whatever it is given. -/
theorem NumOps.toLawful_lawful (N : NumOps) : N.toLawful.Lawful where
  zero_mem := N.isValue_zero
  one_mem := N.isValue_one
  add_zero x h := by
    change N.isValue x = true at h
    simp [NumOps.toLawful, h]
  zero_add x h := by
    change N.isValue x = true at h
    by_cases h0 : x = 0
    · subst h0; simp [NumOps.toLawful, N.isValue_zero]
    · simp [NumOps.toLawful, h, h0]
  mul_zero x := by simp [NumOps.toLawful]
  zero_mul x := by simp [NumOps.toLawful]
  mul_one x h := by
    change N.isValue x = true at h
    by_cases h0 : x = 0 <;> simp [NumOps.toLawful, h, h0]
  mod1_range x := by
    simp only [NumOps.toLawful, NumOps.toValue]
    split
    · next h => split <;> simp_all
    · norm_num
  sin_range p h0 h1 := by
    simp only [NumOps.toLawful, NumOps.toValue]
    split
    · norm_num
    · next h =>
      split
      · exact not_not.1 fun h' => h ⟨h0, h1, h'⟩
      · norm_num
  add_mem x y := by
    simp only [NumOps.toLawful]
    split
    · next h => exact h.2
    split
    · next h => exact h.2
    · exact N.isValue_toValue _
  sub_mem x y := N.isValue_toValue _
  mul_mem x y := by
    simp only [NumOps.toLawful]
    split
    · exact N.isValue_zero
    split
    · next h => exact h.2
    · exact N.isValue_toValue _
  div_mem x y := by
    simp only [NumOps.toLawful]
    split
    · exact N.isValue_wheelDepth _
    · exact N.isValue_toValue _
  ofInt_eq _ := rfl
  two_eq := rfl
  modRangeReset_eq := rfl
  ccScale_eq := rfl
  wheel_range n := by
    simp only [NumOps.toLawful, isSmallInt_natCast, and_self, if_true]
    exact N.wheelDepth_range _
  wheel_zero := by simp [NumOps.toLawful, NumOps.wheelDepth, isSmallInt]
  wheel_full := by simp [NumOps.toLawful, NumOps.wheelDepth, isSmallInt]
  mod1_mem x := by
    simp only [NumOps.toLawful]
    split
    · exact N.isValue_toValue _
    · exact N.isValue_zero
  sin_mem p := by
    simp only [NumOps.toLawful]
    split
    · exact N.isValue_zero
    · exact N.isValue_toValue _
  ofWire_mem x := N.isValue_toValue _
  ofInt_mem n := N.isValue_ofInt n
  const_mem x hx := by
    simp only [NumOps.toLawful, List.mem_cons, List.not_mem_nil, or_false] at hx
    rcases hx with h | h | h | h | h | h | h | h <;> rw [h] <;> first
      | exact N.isValue_toValue _
      | rfl

/-- `toLawful` leaves alone a system that is within the laws, so each of those arises. -/
theorem NumOps.toLawful_of_lawful {N : NumOps} (h : N.Lawful) : N.toLawful = N := by
  have hv : N.isValue = N.mem := by
    funext x
    unfold NumOps.isValue
    cases hx : isSmallInt x with
    | false => rfl
    | true =>
      obtain ⟨n, rfl⟩ := (isSmallInt_iff x).1 hx
      rw [← h.ofInt_eq, h.ofInt_mem]; rfl
  have ht : ∀ x, N.mem x = true → N.toValue x = x := fun x hx => by simp [NumOps.toValue, hv, hx]
  have hc : ∀ x ∈ _, N.toValue x = x := fun x hx => ht x (h.const_mem x hx)
  simp only [List.mem_cons, List.not_mem_nil, or_false, forall_eq_or_imp, forall_eq] at hc
  obtain ⟨h1, h2, h3, h4, h5, h6, h7, h8⟩ := hc
  have ha : N.toLawful.add = N.add := by
    funext x y
    simp only [NumOps.toLawful, hv, ht _ (h.add_mem x y)]
    split
    · next e => rw [e.1, h.add_zero x e.2]
    split
    · next e => rw [e.1, h.zero_add y e.2]
    · rfl
  have hm : N.toLawful.mul = N.mul := by
    funext x y
    simp only [NumOps.toLawful, hv, ht _ (h.mul_mem x y)]
    split
    · next e => rcases e with e | e <;> rw [e] <;> simp [h.zero_mul, h.mul_zero]
    split
    · next e => rw [e.1, h.mul_one x e.2]
    · rfl
  have hd : N.toLawful.div = N.div := by
    funext x y
    simp only [NumOps.toLawful, ht _ (h.div_mem x y)]
    split
    · next e =>
      obtain ⟨hy, hx⟩ := e
      obtain ⟨n, rfl⟩ := (isSmallInt_iff x).1 hx
      subst hy
      unfold NumOps.wheelDepth
      split
      · next e => rw [e, h.wheel_zero]
      split
      · next e => rw [e, h.wheel_full]
      · rw [if_pos (h.wheel_range n), ht _ (h.div_mem _ _)]
    · rfl
  have hi : Machine.ofInt = N.ofInt := funext fun n => (h.ofInt_eq n).symm
  have ho : N.toLawful.mod1 = N.mod1 := by
    funext x
    simp only [NumOps.toLawful, ht _ (h.mod1_mem x), if_pos (h.mod1_range x)]
  have hs : N.toLawful.sin = N.sin := by
    funext p
    simp only [NumOps.toLawful, ht _ (h.sin_mem p)]
    split
    · next e => exact absurd (h.sin_range p e.1 e.2.1) e.2.2
    · rfl
  rw [show N.toLawful = { N with
      mem := N.isValue, add := N.toLawful.add, sub := fun x y => N.toValue (N.sub x y),
      mul := N.toLawful.mul, div := N.toLawful.div, mod1 := N.toLawful.mod1,
      sin := N.toLawful.sin, ofWire := fun x => N.toValue (N.ofWire x),
      ofInt := Machine.ofInt, two := 2, minTime := N.toValue N.minTime,
      tenth := N.toValue N.tenth, mixGain := N.toValue N.mixGain,
      releaseReset := N.toValue N.releaseReset, sustainReset := N.toValue N.sustainReset,
      modRangeReset := 20, ccScale := 127 } from rfl]
  simp only [ha, hm, hd, ho, hs, hi, hv, h2, h3, h4, h5, h6, ← h.two_eq, ← h.modRangeReset_eq, ← h.ccScale_eq,
    ht _ (h.sub_mem _ _), ht _ (h.ofWire_mem _)]

end Sys2Proof

namespace Sys2Proof.Machine

/-- Every number system the machine can have keeps the laws of R8. -/
theorem numOps_lawful (sys : NumSystem) : (numOps sys).Lawful := by
  cases sys with
  | exact => exact NumOps.exact_lawful
  | free k => exact (Config.freeNum k).toLawful_lawful

theorem State.num_lawful (s : State) : s.num.Lawful := numOps_lawful _

@[simp] theorem numOps_exact : numOps .exact = NumOps.exact := rfl

/-- The short cut of `modulation` is the product of R132, by law N2. -/
theorem modulation_eq {N : NumOps} (h : N.Lawful) (l w r : V) :
    modulation N l w r = N.mul (N.mul l w) r := by
  unfold modulation
  split
  · next e => rcases e with e | e <;> simp [e, h.mul_zero, h.zero_mul]
  · rfl

/-- The wheel depth of R163, in every lawful system. -/
theorem wheelDepth_eq {N : NumOps} (h : N.Lawful) (v : BitVec 7) :
    N.div (N.ofInt v) N.ccScale = N.div (v.toNat : V) 127 := by
  rw [h.ofInt_eq, h.ccScale_eq]

@[simp] theorem representable_exact (c : Config) (h : c.num = .exact) (fs : V) : representable c fs = true := by
  simp [representable, h]

theorem representable_iff (c : Config) (fs : V) : representable c fs = true ↔
    (numOps c.num).mem fs = true ∧ (numOps c.num).mem c.modWheelReset = true ∧
      (numOps c.num).mem c.lfoFreqReset = true := by
  simp [representable, and_assoc]

end Sys2Proof.Machine
end

