-- ==== Sys2Proof/Laws/FixedPoint.lean ====
section
/-! SUPPORT. A finite number system: signed Q16.16 with saturation, rounded down (spec/00_scope.md R4, R8). It is within
the laws of `NUM`, keeps signs and has positive rates, so the statements over number systems reach finite formats
(log 26). -/

namespace Sys2Proof

open Machine

/-- The greatest Q16.16 number not above `x`, saturated at both ends. -/
def q16Round (x : V) : V := ((max (-2 ^ 31) (min (2 ^ 31 - 1) (x * 65536).floor) : Int) : V) / 65536

theorem q16Round_mem (x : V) : onGrid (q16Round x) = true := by
  rw [onGrid_iff]
  refine ⟨max (-2 ^ 31) (min (2 ^ 31 - 1) (x * 65536).floor), ?_, le_max_left _ _, ?_⟩
  · unfold q16Round; field_simp
  · have : max (-2 ^ 31) (min (2 ^ 31 - 1) (x * 65536).floor) ≤ (2 ^ 31 - 1 : Int) :=
      max_le (by norm_num) (min_le_left _ _)
    omega

/-- A value is not rounded. -/
theorem q16Round_of_mem {x : V} (h : onGrid x = true) : q16Round x = x := by
  obtain ⟨k, hk, hl, hu⟩ := (onGrid_iff x).1 h
  have hf : (x * 65536).floor = k := by rw [hk]; exact Int.floor_intCast (R := ℚ) k
  unfold q16Round
  rw [hf, min_eq_right (by omega), max_eq_right hl, ← hk]
  field_simp

theorem q16Round_mono {x y : V} (h : x ≤ y) : q16Round x ≤ q16Round y := by
  have hf : (x * 65536).floor ≤ (y * 65536).floor := Int.floor_mono (R := ℚ) (by linarith)
  have hk : max (-2 ^ 31) (min (2 ^ 31 - 1) (x * 65536).floor) ≤
      max (-2 ^ 31) (min (2 ^ 31 - 1) (y * 65536).floor) := max_le_max le_rfl (min_le_min le_rfl hf)
  have hc : ((max (-2 ^ 31) (min (2 ^ 31 - 1) (x * 65536).floor) : Int) : V) ≤
      ((max (-2 ^ 31) (min (2 ^ 31 - 1) (y * 65536).floor) : Int) : V) := Int.cast_le.2 hk
  exact div_le_div_of_nonneg_right hc (by norm_num)

/-- Rounding keeps a bound that is a value. -/
theorem le_q16Round {a x : V} (ha : onGrid a = true) (h : a ≤ x) : a ≤ q16Round x :=
  q16Round_of_mem ha ▸ q16Round_mono h

theorem q16Round_le {a x : V} (ha : onGrid a = true) (h : x ≤ a) : q16Round x ≤ a :=
  q16Round_of_mem ha ▸ q16Round_mono h

theorem q16Round_nonneg {x : V} (h : 0 ≤ x) : 0 ≤ q16Round x := le_q16Round (by decide +kernel) h

theorem onGrid_natCast (n : BitVec 7) : onGrid (n.toNat : V) = true := by
  rw [onGrid_iff]
  exact ⟨n.toNat * 65536, by push_cast; ring, by omega, by omega⟩

/-- Signed Q16.16 arithmetic: every result is rounded down to the grid and saturates, and so does a quotient by 0. -/
def q16 : NumOps where
  mem := onGrid
  add x y := q16Round (x + y)
  sub x y := q16Round (x - y)
  mul x y := q16Round (x * y)
  div x y := q16Round (if y = 0 then 32768 else x / y)
  mod1 x := q16Round (Machine.mod1 x)
  sin p := q16Round (sinq p)
  ofWire x := q16Round x
  ofInt := Machine.ofInt
  two := 2
  minTime := q16Round (1 / 1000)
  tenth := q16Round (1 / 10)
  mixGain := q16Round (1 / 5)
  releaseReset := q16Round (3 / 10)
  sustainReset := q16Round (7 / 10)
  modRangeReset := 20
  ccScale := 127

theorem q16_div_of_ne (x : V) {y : V} (h : y ≠ 0) : q16.div x y = q16Round (x / y) := by
  change q16Round (if y = 0 then 32768 else x / y) = _
  rw [if_neg h]

theorem q16_lawful : q16.Lawful where
  zero_mem := by decide +kernel
  one_mem := by decide +kernel
  add_zero x h := by change q16Round (x + 0) = x; rw [add_zero, q16Round_of_mem h]
  zero_add x h := by change q16Round (0 + x) = x; rw [zero_add, q16Round_of_mem h]
  mul_zero x := by change q16Round (x * 0) = 0; rw [mul_zero]; decide +kernel
  zero_mul x := by change q16Round (0 * x) = 0; rw [zero_mul]; decide +kernel
  mul_one x h := by change q16Round (x * 1) = x; rw [mul_one, q16Round_of_mem h]
  mod1_range x := by
    refine ⟨q16Round_nonneg (mod1_nonneg x), ?_⟩
    have h1 : (Machine.mod1 x * 65536).floor < 65536 :=
      (Int.floor_lt (α := ℚ)).2 (by have := mod1_lt_one x; push_cast; linarith)
    have h2 : max (-2 ^ 31) (min (2 ^ 31 - 1) (Machine.mod1 x * 65536).floor) < (65536 : Int) :=
      max_lt (by norm_num) (lt_of_le_of_lt (min_le_right _ _) h1)
    have h3 : ((max (-2 ^ 31) (min (2 ^ 31 - 1) (Machine.mod1 x * 65536).floor) : Int) : V) < 65536 := by
      exact_mod_cast h2
    exact (div_lt_one (by norm_num)).2 h3
  sin_range p _ _ := ⟨le_q16Round (by decide +kernel) (sinq_range p).1,
    q16Round_le (by decide +kernel) (sinq_range p).2⟩
  ofInt_eq _ := rfl
  two_eq := rfl
  modRangeReset_eq := rfl
  ccScale_eq := rfl
  wheel_range n := by
    rw [q16_div_of_ne _ (by norm_num)]
    exact ⟨q16Round_nonneg (ofInt_div_range n).1, q16Round_le (by decide +kernel) (ofInt_div_range n).2⟩
  wheel_zero := by decide +kernel
  wheel_full := by decide +kernel
  add_mem _ _ := q16Round_mem _
  sub_mem _ _ := q16Round_mem _
  mul_mem _ _ := q16Round_mem _
  div_mem _ _ := q16Round_mem _
  mod1_mem _ := q16Round_mem _
  sin_mem _ := q16Round_mem _
  ofWire_mem _ := q16Round_mem _
  ofInt_mem n := onGrid_natCast n
  const_mem := by decide +kernel

theorem q16_keepsSigns : q16.KeepsSigns where
  add_nonneg _ _ _ _ hx hy := q16Round_nonneg (by linarith)
  sub_le _ _ hx _ _ hy := q16Round_le hx (by linarith)

/-- No value is as large as `2 ^ 15`. -/
theorem q16Round_lt (x : V) : q16Round x < 32768 := by
  obtain ⟨k, hk, -, hu⟩ := (onGrid_iff _).1 (q16Round_mem x)
  have : (k : V) < 2147483648 := by exact_mod_cast hu
  linarith

/-- The reciprocal of a value is at least two steps of the grid, and that of 0 saturates: no rate rounds to 0. -/
theorem q16_positiveRates : q16.PositiveRates where
  sustainReset_range := by decide +kernel
  rate_pos s fs _ _ hf := by
    have h1 : (0 : V) ≤ max s q16.minTime := le_max_of_le_right (by decide +kernel)
    have h2 : (0 : V) ≤ q16Round (max s q16.minTime * fs) := q16Round_nonneg (mul_nonneg h1 hf.le)
    change 0 < q16.div 1 (q16Round (max s q16.minTime * fs))
    by_cases h0 : q16Round (max s q16.minTime * fs) = 0
    · rw [h0]; decide +kernel
    · rw [q16_div_of_ne _ h0]
      have hp : 0 < q16Round (max s q16.minTime * fs) := lt_of_le_of_ne h2 (Ne.symm h0)
      have hl : (1 / 32768 : V) ≤ 1 / q16Round (max s q16.minTime * fs) :=
        one_div_le_one_div_of_le hp (q16Round_lt _).le
      exact lt_of_lt_of_le (by norm_num) (le_q16Round (by decide +kernel) hl)

end Sys2Proof
end

