-- ==== Sys2Proof/Laws/State.lean ====
section
/-! SUPPORT. Each field of the state after each named update: what it writes, and that it leaves the rest. -/

namespace Sys2Proof.Machine

variable (s : State)

@[simp] theorem State.setVoices_voices (p : Pool) : (s.setVoices p).voices = p := rfl
@[simp] theorem State.setVoices_fs (p : Pool) : (s.setVoices p).fs = s.fs := rfl
@[simp] theorem State.setVoices_chan (p : Pool) : (s.setVoices p).chan = s.chan := rfl
@[simp] theorem State.setVoices_draining (p : Pool) : (s.setVoices p).draining = s.draining := rfl
@[simp] theorem State.setVoices_cfg (p : Pool) : (s.setVoices p).cfg = s.cfg := rfl
@[simp] theorem State.setVoices_inputs (p : Pool) : (s.setVoices p).inputs = s.inputs := rfl
@[simp] theorem State.setVoices_repeats (p : Pool) : (s.setVoices p).repeats = s.repeats := rfl
@[simp] theorem State.setVoices_producer (p : Pool) : (s.setVoices p).producer = s.producer := rfl
@[simp] theorem State.setVoices_results (p : Pool) : (s.setVoices p).results = s.results := rfl
@[simp] theorem State.setVoices_samples (p : Pool) : (s.setVoices p).samples = s.samples := rfl

@[simp] theorem State.setFs_voices (x : V) : (s.setFs x).voices = s.voices := rfl
@[simp] theorem State.setFs_fs (x : V) : (s.setFs x).fs = x := rfl
@[simp] theorem State.setFs_chan (x : V) : (s.setFs x).chan = s.chan := rfl
@[simp] theorem State.setFs_draining (x : V) : (s.setFs x).draining = s.draining := rfl
@[simp] theorem State.setFs_cfg (x : V) : (s.setFs x).cfg = s.cfg := rfl
@[simp] theorem State.setFs_inputs (x : V) : (s.setFs x).inputs = s.inputs := rfl
@[simp] theorem State.setFs_repeats (x : V) : (s.setFs x).repeats = s.repeats := rfl
@[simp] theorem State.setFs_producer (x : V) : (s.setFs x).producer = s.producer := rfl
@[simp] theorem State.setFs_results (x : V) : (s.setFs x).results = s.results := rfl
@[simp] theorem State.setFs_samples (x : V) : (s.setFs x).samples = s.samples := rfl

@[simp] theorem State.setChan_voices (q : List CmdWord) : (s.setChan q).voices = s.voices := rfl
@[simp] theorem State.setChan_fs (q : List CmdWord) : (s.setChan q).fs = s.fs := rfl
@[simp] theorem State.setChan_chan (q : List CmdWord) : (s.setChan q).chan = q := rfl
@[simp] theorem State.setChan_draining (q : List CmdWord) : (s.setChan q).draining = s.draining := rfl
@[simp] theorem State.setChan_cfg (q : List CmdWord) : (s.setChan q).cfg = s.cfg := rfl
@[simp] theorem State.setChan_inputs (q : List CmdWord) : (s.setChan q).inputs = s.inputs := rfl
@[simp] theorem State.setChan_repeats (q : List CmdWord) : (s.setChan q).repeats = s.repeats := rfl
@[simp] theorem State.setChan_producer (q : List CmdWord) : (s.setChan q).producer = s.producer := rfl
@[simp] theorem State.setChan_results (q : List CmdWord) : (s.setChan q).results = s.results := rfl
@[simp] theorem State.setChan_samples (q : List CmdWord) : (s.setChan q).samples = s.samples := rfl

@[simp] theorem State.setDraining_voices (b : Bool) : (s.setDraining b).voices = s.voices := rfl
@[simp] theorem State.setDraining_fs (b : Bool) : (s.setDraining b).fs = s.fs := rfl
@[simp] theorem State.setDraining_chan (b : Bool) : (s.setDraining b).chan = s.chan := rfl
@[simp] theorem State.setDraining_draining (b : Bool) : (s.setDraining b).draining = b := rfl
@[simp] theorem State.setDraining_cfg (b : Bool) : (s.setDraining b).cfg = s.cfg := rfl
@[simp] theorem State.setDraining_inputs (b : Bool) : (s.setDraining b).inputs = s.inputs := rfl
@[simp] theorem State.setDraining_repeats (b : Bool) : (s.setDraining b).repeats = s.repeats := rfl
@[simp] theorem State.setDraining_producer (b : Bool) : (s.setDraining b).producer = s.producer := rfl
@[simp] theorem State.setDraining_results (b : Bool) : (s.setDraining b).results = s.results := rfl
@[simp] theorem State.setDraining_samples (b : Bool) : (s.setDraining b).samples = s.samples := rfl

@[simp] theorem State.setInputs_voices (l : List Input) : (s.setInputs l).voices = s.voices := rfl
@[simp] theorem State.setInputs_fs (l : List Input) : (s.setInputs l).fs = s.fs := rfl
@[simp] theorem State.setInputs_chan (l : List Input) : (s.setInputs l).chan = s.chan := rfl
@[simp] theorem State.setInputs_draining (l : List Input) : (s.setInputs l).draining = s.draining := rfl
@[simp] theorem State.setInputs_cfg (l : List Input) : (s.setInputs l).cfg = s.cfg := rfl
@[simp] theorem State.setInputs_inputs (l : List Input) : (s.setInputs l).inputs = l := rfl
@[simp] theorem State.setInputs_repeats (l : List Input) : (s.setInputs l).repeats = s.repeats := rfl
@[simp] theorem State.setInputs_producer (l : List Input) : (s.setInputs l).producer = s.producer := rfl
@[simp] theorem State.setInputs_results (l : List Input) : (s.setInputs l).results = s.results := rfl
@[simp] theorem State.setInputs_samples (l : List Input) : (s.setInputs l).samples = s.samples := rfl

@[simp] theorem State.setProducer_voices (p : Nat) : (s.setProducer p).voices = s.voices := rfl
@[simp] theorem State.setProducer_fs (p : Nat) : (s.setProducer p).fs = s.fs := rfl
@[simp] theorem State.setProducer_chan (p : Nat) : (s.setProducer p).chan = s.chan := rfl
@[simp] theorem State.setProducer_draining (p : Nat) : (s.setProducer p).draining = s.draining := rfl
@[simp] theorem State.setProducer_cfg (p : Nat) : (s.setProducer p).cfg = s.cfg := rfl
@[simp] theorem State.setProducer_inputs (p : Nat) : (s.setProducer p).inputs = s.inputs := rfl
@[simp] theorem State.setProducer_repeats (p : Nat) : (s.setProducer p).repeats = s.repeats := rfl
@[simp] theorem State.setProducer_producer (p : Nat) : (s.setProducer p).producer = p := rfl
@[simp] theorem State.setProducer_results (p : Nat) : (s.setProducer p).results = s.results := rfl
@[simp] theorem State.setProducer_samples (p : Nat) : (s.setProducer p).samples = s.samples := rfl

@[simp] theorem State.emitSample_voices (x : V) : (s.emitSample x).voices = s.voices := rfl
@[simp] theorem State.emitSample_fs (x : V) : (s.emitSample x).fs = s.fs := rfl
@[simp] theorem State.emitSample_chan (x : V) : (s.emitSample x).chan = s.chan := rfl
@[simp] theorem State.emitSample_draining (x : V) : (s.emitSample x).draining = s.draining := rfl
@[simp] theorem State.emitSample_cfg (x : V) : (s.emitSample x).cfg = s.cfg := rfl
@[simp] theorem State.emitSample_inputs (x : V) : (s.emitSample x).inputs = s.inputs := rfl
@[simp] theorem State.emitSample_repeats (x : V) : (s.emitSample x).repeats = s.repeats := rfl
@[simp] theorem State.emitSample_producer (x : V) : (s.emitSample x).producer = s.producer := rfl
@[simp] theorem State.emitSample_results (x : V) : (s.emitSample x).results = s.results := rfl
@[simp] theorem State.emitSample_samples (x : V) : (s.emitSample x).samples = x :: s.samples := rfl

@[simp] theorem State.report_voices (p : Nat) (r : PushResult) : (s.report p r).voices = s.voices := rfl
@[simp] theorem State.report_fs (p : Nat) (r : PushResult) : (s.report p r).fs = s.fs := rfl
@[simp] theorem State.report_chan (p : Nat) (r : PushResult) : (s.report p r).chan = s.chan := rfl
@[simp] theorem State.report_draining (p : Nat) (r : PushResult) : (s.report p r).draining = s.draining := rfl
@[simp] theorem State.report_cfg (p : Nat) (r : PushResult) : (s.report p r).cfg = s.cfg := rfl
@[simp] theorem State.report_inputs (p : Nat) (r : PushResult) : (s.report p r).inputs = s.inputs := rfl
@[simp] theorem State.report_repeats (p : Nat) (r : PushResult) : (s.report p r).repeats = s.repeats := rfl
@[simp] theorem State.report_producer (p : Nat) (r : PushResult) : (s.report p r).producer = s.producer := rfl
@[simp] theorem State.report_results (p : Nat) (r : PushResult) : (s.report p r).results = (p, r) :: s.results := rfl
@[simp] theorem State.report_samples (p : Nat) (r : PushResult) : (s.report p r).samples = s.samples := rfl

@[simp] theorem State.updateVoice_voices (i : VoiceIx) (f : Voice → Voice) : (s.updateVoice i f).voices = s.voices.set i (f (s.voices.get i)) := rfl
@[simp] theorem State.updateVoice_fs (i : VoiceIx) (f : Voice → Voice) : (s.updateVoice i f).fs = s.fs := rfl
@[simp] theorem State.updateVoice_chan (i : VoiceIx) (f : Voice → Voice) : (s.updateVoice i f).chan = s.chan := rfl
@[simp] theorem State.updateVoice_draining (i : VoiceIx) (f : Voice → Voice) : (s.updateVoice i f).draining = s.draining := rfl
@[simp] theorem State.updateVoice_cfg (i : VoiceIx) (f : Voice → Voice) : (s.updateVoice i f).cfg = s.cfg := rfl
@[simp] theorem State.updateVoice_inputs (i : VoiceIx) (f : Voice → Voice) : (s.updateVoice i f).inputs = s.inputs := rfl
@[simp] theorem State.updateVoice_repeats (i : VoiceIx) (f : Voice → Voice) : (s.updateVoice i f).repeats = s.repeats := rfl
@[simp] theorem State.updateVoice_producer (i : VoiceIx) (f : Voice → Voice) : (s.updateVoice i f).producer = s.producer := rfl
@[simp] theorem State.updateVoice_results (i : VoiceIx) (f : Voice → Voice) : (s.updateVoice i f).results = s.results := rfl
@[simp] theorem State.updateVoice_samples (i : VoiceIx) (f : Voice → Voice) : (s.updateVoice i f).samples = s.samples := rfl

@[simp] theorem State.broadcast_voices (f : Voice → Voice) : (s.broadcast f).voices = s.voices.map f := rfl
@[simp] theorem State.broadcast_fs (f : Voice → Voice) : (s.broadcast f).fs = s.fs := rfl
@[simp] theorem State.broadcast_chan (f : Voice → Voice) : (s.broadcast f).chan = s.chan := rfl
@[simp] theorem State.broadcast_draining (f : Voice → Voice) : (s.broadcast f).draining = s.draining := rfl
@[simp] theorem State.broadcast_cfg (f : Voice → Voice) : (s.broadcast f).cfg = s.cfg := rfl
@[simp] theorem State.broadcast_inputs (f : Voice → Voice) : (s.broadcast f).inputs = s.inputs := rfl
@[simp] theorem State.broadcast_repeats (f : Voice → Voice) : (s.broadcast f).repeats = s.repeats := rfl
@[simp] theorem State.broadcast_producer (f : Voice → Voice) : (s.broadcast f).producer = s.producer := rfl
@[simp] theorem State.broadcast_results (f : Voice → Voice) : (s.broadcast f).results = s.results := rfl
@[simp] theorem State.broadcast_samples (f : Voice → Voice) : (s.broadcast f).samples = s.samples := rfl

@[simp] theorem State.pushWord_chan (p : Nat) (w : CmdWord) :
    (s.pushWord p w).chan = (chPush s.cfg.chCap s.chan w).2 := rfl
@[simp] theorem State.pushWord_results (p : Nat) (w : CmdWord) :
    (s.pushWord p w).results = (p, (chPush s.cfg.chCap s.chan w).1) :: s.results := rfl
@[simp] theorem State.pushWord_voices (p : Nat) (w : CmdWord) : (s.pushWord p w).voices = s.voices := rfl
@[simp] theorem State.pushWord_fs (p : Nat) (w : CmdWord) : (s.pushWord p w).fs = s.fs := rfl
@[simp] theorem State.pushWord_draining (p : Nat) (w : CmdWord) : (s.pushWord p w).draining = s.draining := rfl
@[simp] theorem State.pushWord_cfg (p : Nat) (w : CmdWord) : (s.pushWord p w).cfg = s.cfg := rfl
@[simp] theorem State.pushWord_inputs (p : Nat) (w : CmdWord) : (s.pushWord p w).inputs = s.inputs := rfl
@[simp] theorem State.pushWord_repeats (p : Nat) (w : CmdWord) : (s.pushWord p w).repeats = s.repeats := rfl
@[simp] theorem State.pushWord_producer (p : Nat) (w : CmdWord) : (s.pushWord p w).producer = s.producer := rfl
@[simp] theorem State.pushWord_samples (p : Nat) (w : CmdWord) : (s.pushWord p w).samples = s.samples := rfl

end Sys2Proof.Machine
end

