-- ==== Sys2Proof/Laws/Ops.lean ====
section
/-! SUPPORT. The laws of the pool and of the channel: read after write, the least index, append and remove. -/

namespace Sys2Proof.Machine

/-! ## The pool -/

theorem forall_voiceIx {P : VoiceIx → Prop} :
    (∀ i, P i) ↔ P 0 ∧ P 1 ∧ P 2 ∧ P 3 ∧ P 4 ∧ P 5 ∧ P 6 ∧ P 7 := by
  constructor
  · intro h; exact ⟨h 0, h 1, h 2, h 3, h 4, h 5, h 6, h 7⟩
  · rintro ⟨h0, h1, h2, h3, h4, h5, h6, h7⟩ i
    fin_cases i <;> assumption

@[simp] theorem Pool.get_map (f : Voice → Voice) (p : Pool) (i : VoiceIx) :
    (p.map f).get i = f (p.get i) := by
  fin_cases i <;> rfl

@[simp] theorem Pool.get_set_self (p : Pool) (i : VoiceIx) (v : Voice) : (p.set i v).get i = v := by
  fin_cases i <;> rfl

theorem Pool.get_set_other (p : Pool) {i j : VoiceIx} (v : Voice) (h : j ≠ i) :
    (p.set i v).get j = p.get j := by
  revert h; fin_cases i <;> fin_cases j <;> intro h <;> first | rfl | exact absurd rfl h

theorem Pool.get_set (p : Pool) (i j : VoiceIx) (v : Voice) :
    (p.set i v).get j = if j = i then v else p.get j := by
  split
  · next h => rw [h, Pool.get_set_self]
  · next h => exact Pool.get_set_other p v h

/-- Two pools with the same voices are equal. -/
theorem Pool.ext_get {p q : Pool} (h : ∀ i, p.get i = q.get i) : p = q := by
  rw [forall_voiceIx] at h
  cases p; cases q
  simpa [Pool.get] using h

theorem Pool.toList_eq (p : Pool) : p.toList = ([0, 1, 2, 3, 4, 5, 6, 7] : List VoiceIx).map p.get := rfl

/-- `findFirst` answers the least index whose voice meets the predicate (R7). -/
theorem Pool.findFirst_eq_some (p : Pool) (P : Voice → Bool) (i : VoiceIx) :
    p.findFirst P = some i ↔ P (p.get i) = true ∧ ∀ j < i, P (p.get j) = false := by
  rw [forall_voiceIx (P := fun j => j < i → P (p.get j) = false)]
  unfold Pool.findFirst
  simp only [List.find?_cons, List.find?_nil]
  fin_cases i <;> repeat' split
  all_goals simp_all +decide

/-- `findFirst` answers none exactly when no voice meets the predicate (R7). -/
theorem Pool.findFirst_eq_none (p : Pool) (P : Voice → Bool) :
    p.findFirst P = none ↔ ∀ i, P (p.get i) = false := by
  rw [forall_voiceIx]
  simp [Pool.findFirst]

/-! ## The number system, which no update changes -/

section NumberSystem
variable (s : State)

@[simp] theorem State.setVoices_num (p : Pool) : (s.setVoices p).num = s.num := rfl
@[simp] theorem State.setFs_num (x : V) : (s.setFs x).num = s.num := rfl
@[simp] theorem State.setChan_num (q : List CmdWord) : (s.setChan q).num = s.num := rfl
@[simp] theorem State.setDraining_num (b : Bool) : (s.setDraining b).num = s.num := rfl
@[simp] theorem State.setInputs_num (l : List Input) : (s.setInputs l).num = s.num := rfl
@[simp] theorem State.setProducer_num (p : Nat) : (s.setProducer p).num = s.num := rfl
@[simp] theorem State.emitSample_num (x : V) : (s.emitSample x).num = s.num := rfl
@[simp] theorem State.report_num (p : Nat) (r : PushResult) : (s.report p r).num = s.num := rfl
@[simp] theorem State.updateVoice_num (i : VoiceIx) (f : Voice → Voice) : (s.updateVoice i f).num = s.num := rfl
@[simp] theorem State.broadcast_num (f : Voice → Voice) : (s.broadcast f).num = s.num := rfl
@[simp] theorem State.pushWord_num (p : Nat) (w : CmdWord) : (s.pushWord p w).num = s.num := rfl

end NumberSystem

/-! ## The channel -/

theorem chPush_eq (cap : Option Nat) (q : List CmdWord) (w : CmdWord) :
    chPush cap q w = (.ok, q ++ [w]) ∧ hasRoom cap q = true ∨
      chPush cap q w = (.full, q) ∧ hasRoom cap q = false := by
  unfold chPush
  cases h : hasRoom cap q <;> simp

theorem hasRoom_iff (cap : Option Nat) (q : List CmdWord) :
    hasRoom cap q = true ↔ ∀ n, cap = some n → q.length < n := by
  cases cap <;> simp [hasRoom]

/-! ## Voice selection -/

/-- `select_on` (R171), as what makes an index its answer. -/
theorem selectOn_eq_some (p : Pool) (i : VoiceIx) :
    selectOn p = some i ↔
      ((p.get i).state = .off ∧ ∀ j < i, (p.get j).state ≠ .off) ∨
        ((∀ j, (p.get j).state ≠ .off) ∧ (p.get i).state = .release ∧
          ∀ j < i, (p.get j).state ≠ .release) := by
  unfold selectOn
  cases h : p.findFirst (inState .off) with
  | some k =>
    have hk := (Pool.findFirst_eq_some _ _ _).1 h
    simp only [inState, decide_eq_true_eq, decide_eq_false_iff_not] at hk
    rw [show (some k = some i) ↔ p.findFirst (inState .off) = some i by rw [h], Pool.findFirst_eq_some]
    simp only [inState, decide_eq_true_eq, decide_eq_false_iff_not]
    constructor
    · exact Or.inl
    · rintro (h' | h')
      · exact h'
      · exact absurd hk.1 (h'.1 k)
  | none =>
    have hn := (Pool.findFirst_eq_none _ _).1 h
    simp only [inState, decide_eq_false_iff_not] at hn
    simp only [Pool.findFirst_eq_some, inState, decide_eq_true_eq, decide_eq_false_iff_not]
    constructor
    · exact fun h' => Or.inr ⟨hn, h'⟩
    · rintro (h' | h')
      · exact absurd h'.1 (hn i)
      · exact h'.2

/-- `select_on` finds nothing exactly when no voice is `Off` or in `Release` (R171). -/
theorem selectOn_eq_none (p : Pool) :
    selectOn p = none ↔ ∀ i, (p.get i).state ≠ .off ∧ (p.get i).state ≠ .release := by
  unfold selectOn
  cases h : p.findFirst (inState .off) with
  | some k =>
    have hk := ((Pool.findFirst_eq_some _ _ _).1 h).1
    simp only [inState, decide_eq_true_eq] at hk
    simp only [reduceCtorEq, false_iff]
    intro h'
    exact (h' k).1 hk
  | none =>
    have hn := (Pool.findFirst_eq_none _ _).1 h
    simp only [inState, decide_eq_false_iff_not] at hn
    simp only [Pool.findFirst_eq_none, inState, decide_eq_false_iff_not]
    exact ⟨fun h' i => ⟨hn i, h' i⟩, fun h' i => (h' i).2⟩

/-- `select_off` (R172), as what makes an index its answer. -/
theorem selectOff_eq_some (p : Pool) (n : BitVec 7) (i : VoiceIx) :
    selectOff p n = some i ↔
      ((p.get i).note = n ∧ (p.get i).state ≠ .off) ∧
        ∀ j < i, ¬((p.get j).note = n ∧ (p.get j).state ≠ .off) := by
  unfold selectOff
  rw [Pool.findFirst_eq_some]
  simp [inState]

/-- `select_off` finds nothing exactly when no voice that is not `Off` holds the note (R172). -/
theorem selectOff_eq_none (p : Pool) (n : BitVec 7) :
    selectOff p n = none ↔ ∀ i, ¬((p.get i).note = n ∧ (p.get i).state ≠ .off) := by
  unfold selectOff
  rw [Pool.findFirst_eq_none]
  simp [inState]

end Sys2Proof.Machine
end

