-- ==== Sys2Proof/Laws/PerInstr.lean ====
section
/-! SUPPORT. The family `RowMatch`: the word an instruction encodes to selects the opcode-table row that carries its
mnemonic (spec/30_encoding.md R97 to R100). -/

namespace Sys2Proof.Laws

/-- A mask on a command word acts field by field (R91). -/
theorem cwWord_and (op a b z mo ma mb mz : BitVec 8) (v mv : BitVec 32) :
    cwWord op a b z v &&& cwWord mo ma mb mz mv =
      cwWord (op &&& mo) (a &&& ma) (b &&& mb) (z &&& mz) (v &&& mv) := by
  change (op ++ a ++ b ++ z ++ v) &&& (mo ++ ma ++ mb ++ mz ++ mv) =
    (op &&& mo) ++ (a &&& ma) ++ (b &&& mb) ++ (z &&& mz) ++ (v &&& mv)
  apply BitVec.eq_of_getLsbD_eq
  intro i hi
  simp only [BitVec.getLsbD_and, BitVec.getLsbD_append]
  interval_cases i <;> simp

/-- Bit 7 of a seven-bit operand's field is 0, which is what the mask `0x80` looks at (R95). -/
theorem byte7_and_80 (n : BitVec 7) : byte7 n &&& 0x80 = 0 := by revert n; decide +kernel

/-- The word of a note or a controller selects its row when the masked fields do. -/
theorem selects_cwWord {r : CwRow} {op a b z mo ma mb mz po pa pb pz : BitVec 8} {v mv pv : BitVec 32}
    (hm : r.mask = cwWord mo ma mb mz mv) (hp : r.pattern = cwWord po pa pb pz pv)
    (h : op &&& mo = po ∧ a &&& ma = pa ∧ b &&& mb = pb ∧ z &&& mz = pz ∧ v &&& mv = pv) :
    r.selects (cwWord op a b z v) = true := by
  obtain ⟨h1, h2, h3, h4, h5⟩ := h
  rw [CwRow.selects, beq_iff_eq, hm, hp, cwWord_and, h1, h2, h3, h4, h5]

/-- A `PARAM_CHANGE` word selects the row of its parameter id (R93). -/
theorem selects_paramWord {r : CwRow} (a : BitVec 8) (value : V)
    (hm : r.mask = cwWord 0xFF 0xFF 0xFF 0xFF 0) (hp : r.pattern = cwWord 0x03 a 0 0 0) :
    r.selects (paramWord a value) = true :=
  selects_cwWord hm hp ⟨by decide, by clear hp; revert a; decide +kernel, by decide, by decide, BitVec.and_zero⟩

/-- A MIDI message with 7-bit data selects the row of its status nibble, whatever the channel (R99). -/
theorem selects_midiWord (name : String) (status ch : BitVec 4) (a b : BitVec 7) :
    (MidiRow.mk name 0xF08080 (midiWord status 0 0 0)).selects (midiWord status ch a b) = true := by
  rw [MidiRow.selects, beq_iff_eq]
  change (status ++ ch ++ (0#1 ++ a) ++ (0#1 ++ b)) &&& 0xF08080#24 =
    status ++ 0#4 ++ (0#1 ++ 0#7) ++ (0#1 ++ 0#7)
  rw [show (0xF08080#24 : BitVec 24) = 0xF#4 ++ 0#4 ++ (1#1 ++ 0#7) ++ (1#1 ++ 0#7) by decide]
  apply BitVec.eq_of_getLsbD_eq
  intro i hi
  simp only [BitVec.getLsbD_and, BitVec.getLsbD_append]
  interval_cases i <;> simp [show (15#4 : BitVec 4) = BitVec.allOnes 4 by decide]

namespace RowMatch

/-- A well-formed instruction's word selects the row that carries its mnemonic; a request is the bit of
its row (R98); `RESET` has no bits (R91). -/
def Statement (i : Instr) : Prop :=
  i.wellFormed = true →
    match encode i with
    | .cw w => ∃ r ∈ cwRows, r.mnemonic = i.mnemonic ∧ r.selects w = true
    | .rq b => (b = 0 ∧ i.mnemonic = "TICK") ∨ (b = 1 ∧ i.mnemonic = "DRAIN")
    | .midi3 m => ∃ r ∈ midiRows, r.mnemonic = i.mnemonic ∧ r.selects m = true
    | .resetPort _ => i.mnemonic = "RESET"

theorem nop : Statement .nop := fun _ => ⟨cwRows[0], List.getElem_mem _, rfl, by decide +kernel⟩

theorem noteOn (note : BitVec 7) (freq : V) : Statement (.noteOn note freq) := fun _ =>
  ⟨cwRows[1], List.getElem_mem _, rfl,
    selects_cwWord (mo := 0xFF) (ma := 0x80) (mb := 0xFF) (mz := 0xFF) (mv := 0)
      (po := 0x01) (pa := 0) (pb := 0) (pz := 0) (pv := 0) (by decide) (by decide)
      ⟨by decide, byte7_and_80 note, by decide, by decide, BitVec.and_zero⟩⟩

theorem noteOff (note : BitVec 7) : Statement (.noteOff note) := fun _ =>
  ⟨cwRows[2], List.getElem_mem _, rfl,
    selects_cwWord (mo := 0xFF) (ma := 0x80) (mb := 0xFF) (mz := 0xFF) (mv := 0xFFFFFFFF)
      (po := 0x02) (pa := 0) (pb := 0) (pz := 0) (pv := 0) (by decide) (by decide)
      ⟨by decide, byte7_and_80 note, by decide, by decide, by decide⟩⟩

theorem controlChange (ctrl value : BitVec 7) : Statement (.controlChange ctrl value) := fun _ =>
  ⟨cwRows[9], List.getElem_mem _, rfl,
    selects_cwWord (mo := 0xFF) (ma := 0x80) (mb := 0x80) (mz := 0xFF) (mv := 0xFFFFFFFF)
      (po := 0x04) (pa := 0) (pb := 0) (pz := 0) (pv := 0) (by decide) (by decide)
      ⟨by decide, byte7_and_80 ctrl, byte7_and_80 value, by decide, by decide⟩⟩

theorem paramAttack (value : V) : Statement (.paramAttack value) := fun _ =>
  ⟨cwRows[3], List.getElem_mem _, rfl, selects_paramWord 0 value (by decide) (by decide)⟩

theorem paramDecay (value : V) : Statement (.paramDecay value) := fun _ =>
  ⟨cwRows[4], List.getElem_mem _, rfl, selects_paramWord 1 value (by decide) (by decide)⟩

theorem paramSustain (value : V) : Statement (.paramSustain value) := fun _ =>
  ⟨cwRows[5], List.getElem_mem _, rfl, selects_paramWord 2 value (by decide) (by decide)⟩

theorem paramRelease (value : V) : Statement (.paramRelease value) := fun _ =>
  ⟨cwRows[6], List.getElem_mem _, rfl, selects_paramWord 3 value (by decide) (by decide)⟩

theorem paramModRange (value : V) : Statement (.paramModRange value) := fun _ =>
  ⟨cwRows[7], List.getElem_mem _, rfl, selects_paramWord 4 value (by decide) (by decide)⟩

theorem paramLfoFreq (value : V) : Statement (.paramLfoFreq value) := fun _ =>
  ⟨cwRows[8], List.getElem_mem _, rfl, selects_paramWord 5 value (by decide) (by decide)⟩

theorem tick : Statement .tick := fun _ => Or.inl ⟨rfl, rfl⟩

theorem drain : Statement .drain := fun _ => Or.inr ⟨rfl, rfl⟩

theorem reset (fs : V) : Statement (.reset fs) := fun _ => rfl

theorem midiNoteOff (ch : BitVec 4) (note vel : BitVec 7) : Statement (.midiNoteOff ch note vel) := fun _ =>
  ⟨midiRows[0], List.getElem_mem _, rfl, selects_midiWord _ 0x8 ch note vel⟩

theorem midiNoteOn (ch : BitVec 4) (note vel : BitVec 7) : Statement (.midiNoteOn ch note vel) := fun _ =>
  ⟨midiRows[1], List.getElem_mem _, rfl, selects_midiWord _ 0x9 ch note vel⟩

theorem midiCc (ch : BitVec 4) (ctrl value : BitVec 7) : Statement (.midiCc ch ctrl value) := fun _ =>
  ⟨midiRows[2], List.getElem_mem _, rfl, selects_midiWord _ 0xB ch ctrl value⟩

end RowMatch

end Sys2Proof.Laws
end

