-- ==== Sys2Proof/Laws/Voice.lean ====
section
/-! SUPPORT. What the operations of one voice can do: one lemma each for the envelope step and the rendered sample. -/

namespace Sys2Proof.Machine

/-- Everything the envelope step can do (R130): the state on entry, the condition, the registers after. -/
theorem envStep_cases (N : NumOps) (v : Voice) :
    (v.state = .attack ∧ 1 ≤ N.add v.amp v.attackRate ∧ envStep N v = { v with amp := 1, state := .decay }) ∨
    (v.state = .attack ∧ N.add v.amp v.attackRate < 1 ∧ envStep N v = { v with amp := N.add v.amp v.attackRate }) ∨
    (v.state = .decay ∧ N.sub v.amp v.decayRate ≤ v.sustain ∧
      envStep N v = { v with amp := v.sustain, state := .sustain }) ∨
    (v.state = .decay ∧ v.sustain < N.sub v.amp v.decayRate ∧
      envStep N v = { v with amp := N.sub v.amp v.decayRate }) ∨
    (v.state = .sustain ∧ envStep N v = v) ∨
    (v.state = .release ∧ N.sub v.amp v.releaseRate ≤ 0 ∧
      envStep N v = { v with amp := 0, phase := 0, state := .off }) ∨
    (v.state = .release ∧ 0 < N.sub v.amp v.releaseRate ∧
      envStep N v = { v with amp := N.sub v.amp v.releaseRate }) ∨
    (v.state = .off ∧ envStep N v = v) := by
  unfold envStep attackArm decayArm sustainArm releaseArm
  cases v.state
  all_goals simp only [reduceCtorEq, false_and, true_and, or_false, false_or]
  all_goals split
  all_goals first
    | exact Or.inl ⟨by assumption, rfl⟩
    | exact Or.inr ⟨not_le.1 (by assumption), rfl⟩

/-- Everything one rendered sample can do (R136). -/
theorem renderVoice_cases (N : NumOps) (early : Bool) (fs : V) (v : Voice) :
    (v.state = .off ∧ renderVoice N early fs v = (0, v)) ∨
    (v.state ≠ .off ∧ early = true ∧ (envStep N v).state = .off ∧ renderVoice N early fs v = (0, envStep N v)) ∨
    (v.state ≠ .off ∧ ¬(early = true ∧ (envStep N v).state = .off) ∧
      renderVoice N early fs v = renderTail N fs (envStep N v)) := by
  unfold renderVoice inState
  split
  · exact Or.inl ⟨by assumption, rfl⟩
  · split
    · next h =>
      simp only [Bool.and_eq_true, decide_eq_true_eq] at h
      exact Or.inr (Or.inl ⟨by assumption, h.1, h.2, rfl⟩)
    · next h =>
      simp only [Bool.and_eq_true, decide_eq_true_eq] at h
      exact Or.inr (Or.inr ⟨by assumption, h, rfl⟩)

/-- The envelope step writes `amp`, `state` and `phase` at most. -/
theorem envStep_frame (N : NumOps) (v : Voice) :
    envStep N v = { v with amp := (envStep N v).amp, state := (envStep N v).state, phase := (envStep N v).phase } := by
  rcases envStep_cases N v with
    ⟨-, -, h⟩ | ⟨-, -, h⟩ | ⟨-, -, h⟩ | ⟨-, -, h⟩ | ⟨-, h⟩ | ⟨-, -, h⟩ | ⟨-, -, h⟩ | ⟨-, h⟩ <;> rw [h]

/-- A rendered sample writes `amp`, `state` and the two phases at most (R190 side effects). -/
theorem renderVoice_frame (N : NumOps) (early : Bool) (fs : V) (v : Voice) :
    (renderVoice N early fs v).2 =
      { v with
        amp := (renderVoice N early fs v).2.amp, state := (renderVoice N early fs v).2.state,
        phase := (renderVoice N early fs v).2.phase, lfoPhase := (renderVoice N early fs v).2.lfoPhase } := by
  have h' := envStep_frame N v
  rcases renderVoice_cases N early fs v with h | h | h
  · simp [h.2]
  · simp only [h.2.2.2]; rw [h']
  · simp only [h.2.2, renderTail]; rw [h']

/-- The envelope of a rendered voice is the envelope step's (R136 step 1). -/
theorem renderVoice_state (N : NumOps) (early : Bool) (fs : V) (v : Voice) :
    (renderVoice N early fs v).2.state = (envStep N v).state ∧ (renderVoice N early fs v).2.amp = (envStep N v).amp := by
  rcases renderVoice_cases N early fs v with h | h | h
  · rw [h.2]; simp [envStep, h.1]
  · rw [h.2.2.2]; simp
  · rw [h.2.2]; simp [renderTail]

end Sys2Proof.Machine
end

