-- ==== Sys2Proof/Laws/Step.lean ====
section
/-! SUPPORT. What one step can do: one inversion lemma for the fetch and the step, one for `exec`. -/

namespace Sys2Proof.Machine

/-! ## The fetch -/

@[simp] theorem State.pending_of_cons (s : State) (x : Input) (l : List Input) (h : s.inputs = x :: l) :
    s.pending = x :: l := by
  simp [State.pending, h]

@[simp] theorem State.pending_of_nil (s : State) (h : s.inputs = []) : s.pending = s.repeats := by
  simp [State.pending, h]

theorem engineTurn_iff (s : State) :
    s.engineTurn = true ↔ s.draining = true ∧ ∀ x ∈ s.pending.head?, x.byProducer = false := by
  unfold State.engineTurn
  cases s.draining <;> cases s.pending with
  | nil => simp
  | cons x l => cases x <;> simp [Input.byProducer]

/-- On the engine's turn the fetch is a pop (R191). -/
theorem fetch_engineTurn (s : State) (h : s.engineTurn = true) :
    fetch s = fetchPop (s.setInputs s.afterTurn) := by
  obtain ⟨hd, hp⟩ := (engineTurn_iff s).1 h
  unfold fetch State.afterTurn
  cases hi : s.pending with
  | nil => simp only [hd, if_true]; rfl
  | cons x l =>
    cases x with
    | push p w => simp [hi, Input.byProducer] at hp
    | midi p m => simp [hi, Input.byProducer] at hp
    | request rq => simp only [fetchRequest, hd, if_true]; rfl
    | reset fs => simp only [fetchRequest, hd, if_true]; rfl
    | engine => simp only [hd, if_true]

theorem step_pop (s : State) (w : CmdWord) (q : List CmdWord) (h : s.engineTurn = true)
    (hc : s.chan = w :: q) :
    step s = exec (decodeCW w) { s with chan := q, inputs := s.afterTurn } := by
  unfold step
  rw [fetch_engineTurn s h]
  simp only [fetchPop, State.setInputs_chan, hc, chPop]
  rfl

theorem step_pop_empty (s : State) (h : s.engineTurn = true) (hc : s.chan = []) :
    step s = .next { s with draining := false, inputs := s.afterTurn } := by
  have e : chPop (s.setInputs s.afterTurn).chan = none := by simp [chPop, hc]
  unfold step
  rw [fetch_engineTurn s h]
  simp only [fetchPop, e]
  rfl

theorem step_push (s : State) (p : Nat) (w : CmdWord) (rest : List Input) (hp : p < s.cfg.nProd)
    (h : s.pending = .push p w :: rest) : step s = .next ((s.setInputs rest).pushWord p w) := by
  simp only [step, fetch, h, fetchProducer, hp, if_true]

/-! ## A drain that goes on by itself -/

/-- It is the engine's turn. -/
theorem engineTurn_of_drainsAlone (s : State) (hd : s.draining = true) (h : s.drainsAlone = true) :
    s.engineTurn = true := by
  rw [engineTurn_iff]
  refine ⟨hd, ?_⟩
  unfold State.drainsAlone at h
  cases hp : s.pending with
  | nil => simp
  | cons x l => cases x <;> simp_all [Input.byProducer]

/-- A pop leaves the schedule as it is. -/
theorem afterTurn_of_drainsAlone (s : State) (h : s.drainsAlone = true) : s.afterTurn = s.inputs := by
  unfold State.drainsAlone at h
  unfold State.afterTurn
  cases hp : s.pending with
  | nil => rfl
  | cons x l => cases x <;> simp_all

/-- It depends on the schedule only. -/
theorem drainsAlone_congr (s t : State) (hi : s.inputs = t.inputs) (hr : s.repeats = t.repeats) :
    s.drainsAlone = t.drainsAlone := by
  simp [State.drainsAlone, State.pending, hi, hr]

/-! ## The step -/

/-- Everything a step that answers a next state can have done. -/
theorem step_cases (s t : State) (h : step s = .next t) :
    (s.pending = [] ∧ s.draining = false ∧ t = s) ∨
    (s.engineTurn = true ∧ s.chan = [] ∧ t = { s with draining := false, inputs := s.afterTurn }) ∨
    (∃ w q, s.engineTurn = true ∧ s.chan = w :: q ∧
      exec (decodeCW w) { s with chan := q, inputs := s.afterTurn } = .next t) ∨
    (∃ rest, s.draining = false ∧ s.pending = .engine :: rest ∧ t = { s with inputs := rest }) ∨
    (∃ p w rest, p < s.cfg.nProd ∧ s.pending = .push p w :: rest ∧ t = (s.setInputs rest).pushWord p w) ∨
    (∃ p m e rest, p < s.cfg.nProd ∧ s.pending = .midi p m :: rest ∧ decodeMidi m = .error e ∧
      t = { s with inputs := rest }) ∨
    (∃ p m i rest, p < s.cfg.nProd ∧ s.pending = .midi p m :: rest ∧ decodeMidi m = .ok i ∧
      exec i { s with inputs := rest, producer := p } = .next t) ∨
    (∃ rq rest, s.draining = false ∧ s.pending = .request rq :: rest ∧
      exec (decodeRQ rq) { s with inputs := rest } = .next t) ∨
    (∃ fs rest, s.draining = false ∧ s.pending = .reset fs :: rest ∧
      exec (.reset fs) { s with inputs := rest } = .next t) := by
  by_cases ht : s.engineTurn = true
  · rcases hc : s.chan with _ | ⟨w, q⟩
    · rw [step_pop_empty s ht hc] at h
      injection h with h
      exact Or.inr (Or.inl ⟨ht, rfl, by rw [← h, ← hc]⟩)
    · rw [step_pop s w q ht hc] at h
      exact Or.inr (Or.inr (Or.inl ⟨w, q, ht, rfl, h⟩))
  · rw [engineTurn_iff, not_and] at ht
    unfold step fetch at h
    cases hi : s.pending with
    | nil =>
      cases hd : s.draining with
      | true => simp [hi, hd] at ht
      | false =>
        simp only [hi, hd, Bool.false_eq_true, if_false] at h
        injection h with h
        exact Or.inl ⟨rfl, rfl, h.symm⟩
    | cons x rest =>
      cases x with
      | push p w =>
        simp only [hi, fetchProducer] at h
        split at h
        · next hx =>
          split at hx
          · next hp =>
            injection hx with hx; injection h with h
            exact Or.inr (Or.inr (Or.inr (Or.inr (Or.inl ⟨p, w, rest, hp, rfl, by rw [← h, ← hx]⟩))))
          · cases hx
        · next hx => split at hx <;> cases hx
        · cases h
      | midi p m =>
        simp only [hi, fetchProducer, fetchMidi] at h
        by_cases hp : p < s.cfg.nProd
        · simp only [hp, if_true] at h
          cases hm : decodeMidi m with
          | error e =>
            simp only [hm] at h
            injection h with h
            exact Or.inr (Or.inr (Or.inr (Or.inr (Or.inr (Or.inl
              ⟨p, m, e, rest, hp, rfl, hm, h.symm⟩)))))
          | ok i =>
            simp only [hm] at h
            exact Or.inr (Or.inr (Or.inr (Or.inr (Or.inr (Or.inr (Or.inl
              ⟨p, m, i, rest, hp, rfl, hm, h⟩))))))
        · simp only [hp, if_false] at h; cases h
      | request rq =>
        cases hd : s.draining with
        | true => simp [hi, hd, Input.byProducer] at ht
        | false =>
          simp only [hi, fetchRequest, hd, Bool.false_eq_true, if_false] at h
          exact Or.inr (Or.inr (Or.inr (Or.inr (Or.inr (Or.inr (Or.inr (Or.inl
            ⟨rq, rest, rfl, rfl, by rw [← h, ← hd]; rfl⟩)))))))
      | reset fs =>
        cases hd : s.draining with
        | true => simp [hi, hd, Input.byProducer] at ht
        | false =>
          simp only [hi, fetchRequest, hd, Bool.false_eq_true, if_false] at h
          exact Or.inr (Or.inr (Or.inr (Or.inr (Or.inr (Or.inr (Or.inr (Or.inr
            ⟨fs, rest, rfl, rfl, by rw [← h, ← hd]; rfl⟩)))))))
      | engine =>
        cases hd : s.draining with
        | true => simp [hi, hd, Input.byProducer] at ht
        | false =>
          simp only [hi, hd, Bool.false_eq_true, if_false] at h
          injection h with h
          exact Or.inr (Or.inr (Or.inr (Or.inl ⟨rest, rfl, rfl, by rw [← h, ← hd]; rfl⟩)))

/-! ## The meanings -/

/-- The voices after an instruction, voice by voice: which operation of spec/40_voice.md it got. -/
theorem exec_voice (i : Instr) (s t : State) (h : exec i s = .next t) (j : VoiceIx) :
    t.voices.get j = s.voices.get j ∨
    (∃ n f, i = .noteOn n f ∧ selectOn s.voices = some j ∧
      t.voices.get j = voiceNoteOn n (s.num.ofWire f) (s.voices.get j)) ∨
    (∃ n, i = .noteOff n ∧ selectOff s.voices n = some j ∧ t.voices.get j = voiceNoteOff (s.voices.get j)) ∨
    (∃ x, i = .controlChange 1 x ∧
      t.voices.get j = { s.voices.get j with modWheel := s.num.div (s.num.ofInt x) s.num.ccScale }) ∨
    (∃ x, i = .paramModRange x ∧ t.voices.get j = { s.voices.get j with modRange := s.num.ofWire x }) ∨
    (∃ x, i = .paramLfoFreq x ∧ t.voices.get j = { s.voices.get j with lfoFreq := s.num.ofWire x }) ∨
    (∃ x, i = .paramAttack x ∧ s.cfg.wireAdsr = true ∧
      t.voices.get j = voiceSetAttack s.num s.fs (s.num.ofWire x) (s.voices.get j)) ∨
    (∃ x, i = .paramDecay x ∧ s.cfg.wireAdsr = true ∧
      t.voices.get j = voiceSetDecay s.num s.fs (s.num.ofWire x) (s.voices.get j)) ∨
    (∃ x, i = .paramSustain x ∧ s.cfg.wireAdsr = true ∧
      t.voices.get j = voiceSetSustain (s.num.ofWire x) (s.voices.get j)) ∨
    (∃ x, i = .paramRelease x ∧ s.cfg.wireAdsr = true ∧
      t.voices.get j = voiceSetRelease s.num s.fs (s.num.ofWire x) (s.voices.get j)) ∨
    (i = .tick ∧ t.voices.get j = (renderVoice s.num s.cfg.offEarlyExit s.fs (s.voices.get j)).2) ∨
    (∃ fs, i = .reset fs ∧ 0 < fs ∧ representable s.cfg fs = true ∧ t.voices.get j = freshVoice s.cfg fs) := by
  cases i with
  | nop => simp only [exec, execNop] at h; injection h with h; subst h; simp
  | noteOn n f =>
    simp only [exec, execNoteOn] at h
    injection h with h
    subst h
    cases hs : selectOn s.voices with
    | none => simp
    | some k =>
      by_cases hj : j = k
      · subst hj; simp
      · simp [Pool.get_set_other _ _ hj]
  | noteOff n =>
    simp only [exec, execNoteOff] at h
    injection h with h
    subst h
    cases hs : selectOff s.voices n with
    | none => simp
    | some k =>
      by_cases hj : j = k
      · subst hj; simp [hs]
      · simp [Pool.get_set_other _ _ hj]
  | controlChange c v =>
    simp only [exec, execControlChange] at h
    injection h with h
    subst h
    by_cases hc : c = modWheelCc
    · subst hc; simp [modWheelCc]
    · simp [hc]
  | paramModRange v => simp only [exec, execParamModRange] at h; injection h with h; subst h; simp
  | paramLfoFreq v => simp only [exec, execParamLfoFreq] at h; injection h with h; subst h; simp
  | paramAttack v =>
    simp only [exec, execParamAttack, wiredBroadcast] at h
    injection h with h
    subst h
    split <;> simp [*]
  | paramDecay v =>
    simp only [exec, execParamDecay, wiredBroadcast] at h
    injection h with h
    subst h
    split <;> simp [*]
  | paramSustain v =>
    simp only [exec, execParamSustain, wiredBroadcast] at h
    injection h with h
    subst h
    split <;> simp [*]
  | paramRelease v =>
    simp only [exec, execParamRelease, wiredBroadcast] at h
    injection h with h
    subst h
    split <;> simp [*]
  | tick => simp only [exec, execTick] at h; injection h with h; subst h; simp
  | drain => simp only [exec, execDrain] at h; injection h with h; subst h; simp
  | reset fs =>
    simp only [exec, execReset] at h
    split at h
    · cases h
    split at h
    · injection h with h; subst h; simp_all
    · cases h
  | midiNoteOff ch n v => simp only [exec, execMidiNoteOff] at h; injection h with h; subst h; simp
  | midiNoteOn ch n v => simp only [exec, execMidiNoteOn] at h; injection h with h; subst h; simp
  | midiCc ch n v => simp only [exec, execMidiCc] at h; injection h with h; subst h; simp

/-- An accepted message is one of the three MIDI forms (R99). -/
theorem decodeMidi_cases (m : MidiMsg) (i : Instr) (h : decodeMidi m = .ok i) :
    (∃ ch n v, i = .midiNoteOn ch n v) ∨ (∃ ch n v, i = .midiNoteOff ch n v) ∨
      ∃ ch c v, i = .midiCc ch c v := by
  unfold decodeMidi at h
  simp only at h
  split at h
  · cases h
  split at h
  · injection h with h; exact Or.inl ⟨_, _, _, h.symm⟩
  split at h
  · injection h with h; exact Or.inr (Or.inl ⟨_, _, _, h.symm⟩)
  split at h
  · injection h with h; exact Or.inr (Or.inr ⟨_, _, _, h.symm⟩)
  · cases h

/-- A command word decodes to one of the ten commands (R97). -/
theorem decodeCW_cases (w : CmdWord) :
    decodeCW w = .nop ∨ (∃ n f, decodeCW w = .noteOn n f) ∨ (∃ n, decodeCW w = .noteOff n) ∨
    (∃ x, decodeCW w = .paramAttack x) ∨ (∃ x, decodeCW w = .paramDecay x) ∨
    (∃ x, decodeCW w = .paramSustain x) ∨ (∃ x, decodeCW w = .paramRelease x) ∨
    (∃ x, decodeCW w = .paramModRange x) ∨ (∃ x, decodeCW w = .paramLfoFreq x) ∨
    (∃ c x, decodeCW w = .controlChange c x) := by
  unfold decodeCW
  simp only
  split
  · simp
  split
  · simp
  split
  · simp
  split
  · unfold paramInstr; split <;> simp
  split <;> simp

/-- What a command word does depends on the number system, the switch, the sample rate and the pool only,
and writes the pool only: it always completes (R160). -/
theorem exec_decodeCW (w : CmdWord) :
    ∃ F : NumSystem → Bool → V → Pool → Pool, ∀ s : State,
      exec (decodeCW w) s = .next (s.setVoices (F s.cfg.num s.cfg.wireAdsr s.fs s.voices)) := by
  rcases decodeCW_cases w with h | ⟨n, f, h⟩ | ⟨n, h⟩ | ⟨x, h⟩ | ⟨x, h⟩ | ⟨x, h⟩ | ⟨x, h⟩ | ⟨x, h⟩ |
    ⟨x, h⟩ | ⟨c, x, h⟩ <;> rw [h]
  · exact ⟨fun _ _ _ p => p, fun _ => rfl⟩
  · refine ⟨fun N _ _ p => match selectOn p with
      | some i => p.set i (voiceNoteOn n ((numOps N).ofWire f) (p.get i))
      | none => p, fun s => ?_⟩
    simp only [exec, execNoteOn]
    cases selectOn s.voices <;> rfl
  · refine ⟨fun _ _ _ p => match selectOff p n with
      | some i => p.set i (voiceNoteOff (p.get i))
      | none => p, fun s => ?_⟩
    simp only [exec, execNoteOff]
    cases selectOff s.voices n <;> rfl
  · refine ⟨fun N b fs p => if b then p.map (voiceSetAttack (numOps N) fs ((numOps N).ofWire x)) else p,
      fun s => ?_⟩
    simp only [exec, execParamAttack, wiredBroadcast]
    cases s.cfg.wireAdsr <;> rfl
  · refine ⟨fun N b fs p => if b then p.map (voiceSetDecay (numOps N) fs ((numOps N).ofWire x)) else p,
      fun s => ?_⟩
    simp only [exec, execParamDecay, wiredBroadcast]
    cases s.cfg.wireAdsr <;> rfl
  · refine ⟨fun N b _ p => if b then p.map (voiceSetSustain ((numOps N).ofWire x)) else p, fun s => ?_⟩
    simp only [exec, execParamSustain, wiredBroadcast]
    cases s.cfg.wireAdsr <;> rfl
  · refine ⟨fun N b fs p => if b then p.map (voiceSetRelease (numOps N) fs ((numOps N).ofWire x)) else p,
      fun s => ?_⟩
    simp only [exec, execParamRelease, wiredBroadcast]
    cases s.cfg.wireAdsr <;> rfl
  · exact ⟨fun N _ _ p => p.map fun y => { y with modRange := (numOps N).ofWire x }, fun _ => rfl⟩
  · exact ⟨fun N _ _ p => p.map fun y => { y with lfoFreq := (numOps N).ofWire x }, fun _ => rfl⟩
  · refine ⟨fun N _ _ p => if c = modWheelCc then
        p.map fun y => { y with modWheel := (numOps N).div ((numOps N).ofInt x) (numOps N).ccScale } else p,
      fun s => ?_⟩
    simp only [exec, execControlChange]
    split <;> rfl

/-- The fields other than the voices after an instruction. -/
theorem exec_fields (i : Instr) (s t : State) (h : exec i s = .next t) :
    t.cfg = s.cfg ∧ t.inputs = s.inputs ∧ t.repeats = s.repeats ∧ t.producer = s.producer ∧
    ((∃ fs, i = .reset fs ∧ 0 < fs ∧ representable s.cfg fs = true ∧ t.fs = fs ∧ t.chan = [] ∧ t.draining = false ∧
        t.results = s.results ∧ t.samples = s.samples) ∨
      (i = .tick ∧ t.fs = s.fs ∧ t.chan = s.chan ∧ t.draining = s.draining ∧ t.results = s.results ∧
        t.samples = mix s.num (voiceOutputs s.num s.cfg.offEarlyExit s.fs s.voices) :: s.samples) ∨
      (i = .drain ∧ t = s.setDraining true) ∨
      ((∃ w, t = s.pushWord s.producer w) ∧
        ((∃ ch n v, i = .midiNoteOn ch n v) ∨ (∃ ch n v, i = .midiNoteOff ch n v) ∨
          ∃ ch n v, i = .midiCc ch n v)) ∨
      (t = s.setVoices t.voices)) := by
  cases i with
  | nop => simp only [exec, execNop] at h; injection h with h; subst h; exact ⟨rfl, rfl, rfl, rfl, by simp [State.setVoices]⟩
  | noteOn n f =>
    simp only [exec, execNoteOn] at h
    injection h with h
    subst h
    split
    · exact ⟨rfl, rfl, rfl, rfl, Or.inr (Or.inr (Or.inr (Or.inr rfl)))⟩
    · exact ⟨rfl, rfl, rfl, rfl, Or.inr (Or.inr (Or.inr (Or.inr rfl)))⟩
  | noteOff n =>
    simp only [exec, execNoteOff] at h
    injection h with h
    subst h
    split
    · exact ⟨rfl, rfl, rfl, rfl, Or.inr (Or.inr (Or.inr (Or.inr rfl)))⟩
    · exact ⟨rfl, rfl, rfl, rfl, Or.inr (Or.inr (Or.inr (Or.inr rfl)))⟩
  | controlChange c v =>
    simp only [exec, execControlChange] at h
    injection h with h
    subst h
    split
    · exact ⟨rfl, rfl, rfl, rfl, Or.inr (Or.inr (Or.inr (Or.inr rfl)))⟩
    · exact ⟨rfl, rfl, rfl, rfl, Or.inr (Or.inr (Or.inr (Or.inr rfl)))⟩
  | paramModRange v =>
    simp only [exec, execParamModRange] at h
    injection h with h
    subst h
    exact ⟨rfl, rfl, rfl, rfl, Or.inr (Or.inr (Or.inr (Or.inr rfl)))⟩
  | paramLfoFreq v =>
    simp only [exec, execParamLfoFreq] at h
    injection h with h
    subst h
    exact ⟨rfl, rfl, rfl, rfl, Or.inr (Or.inr (Or.inr (Or.inr rfl)))⟩
  | paramAttack v =>
    simp only [exec, execParamAttack, wiredBroadcast] at h
    injection h with h
    subst h
    split
    · exact ⟨rfl, rfl, rfl, rfl, Or.inr (Or.inr (Or.inr (Or.inr rfl)))⟩
    · exact ⟨rfl, rfl, rfl, rfl, Or.inr (Or.inr (Or.inr (Or.inr rfl)))⟩
  | paramDecay v =>
    simp only [exec, execParamDecay, wiredBroadcast] at h
    injection h with h
    subst h
    split
    · exact ⟨rfl, rfl, rfl, rfl, Or.inr (Or.inr (Or.inr (Or.inr rfl)))⟩
    · exact ⟨rfl, rfl, rfl, rfl, Or.inr (Or.inr (Or.inr (Or.inr rfl)))⟩
  | paramSustain v =>
    simp only [exec, execParamSustain, wiredBroadcast] at h
    injection h with h
    subst h
    split
    · exact ⟨rfl, rfl, rfl, rfl, Or.inr (Or.inr (Or.inr (Or.inr rfl)))⟩
    · exact ⟨rfl, rfl, rfl, rfl, Or.inr (Or.inr (Or.inr (Or.inr rfl)))⟩
  | paramRelease v =>
    simp only [exec, execParamRelease, wiredBroadcast] at h
    injection h with h
    subst h
    split
    · exact ⟨rfl, rfl, rfl, rfl, Or.inr (Or.inr (Or.inr (Or.inr rfl)))⟩
    · exact ⟨rfl, rfl, rfl, rfl, Or.inr (Or.inr (Or.inr (Or.inr rfl)))⟩
  | tick =>
    simp only [exec, execTick] at h
    injection h with h
    subst h
    exact ⟨rfl, rfl, rfl, rfl, Or.inr (Or.inl ⟨rfl, rfl, rfl, rfl, rfl, rfl⟩)⟩
  | drain =>
    simp only [exec, execDrain] at h
    injection h with h
    subst h
    exact ⟨rfl, rfl, rfl, rfl, Or.inr (Or.inr (Or.inl ⟨rfl, rfl⟩))⟩
  | reset fs =>
    simp only [exec, execReset] at h
    split at h
    · cases h
    next hp =>
    split at h
    · next hm =>
      injection h with h
      subst h
      exact ⟨rfl, rfl, rfl, rfl, Or.inl ⟨fs, rfl, not_le.1 hp, hm, rfl, rfl, rfl, rfl, rfl⟩⟩
    · cases h
  | midiNoteOff ch n v =>
    simp only [exec, execMidiNoteOff] at h
    injection h with h
    subst h
    exact ⟨rfl, rfl, rfl, rfl, Or.inr (Or.inr (Or.inr (Or.inl ⟨⟨_, rfl⟩, Or.inr (Or.inl ⟨ch, n, v, rfl⟩)⟩)))⟩
  | midiNoteOn ch n v =>
    simp only [exec, execMidiNoteOn] at h
    injection h with h
    subst h
    exact ⟨rfl, rfl, rfl, rfl, Or.inr (Or.inr (Or.inr (Or.inl ⟨⟨_, rfl⟩, Or.inl ⟨ch, n, v, rfl⟩⟩)))⟩
  | midiCc ch n v =>
    simp only [exec, execMidiCc] at h
    injection h with h
    subst h
    exact ⟨rfl, rfl, rfl, rfl, Or.inr (Or.inr (Or.inr (Or.inl ⟨⟨_, rfl⟩, Or.inr (Or.inr ⟨ch, n, v, rfl⟩)⟩)))⟩

end Sys2Proof.Machine
end

