-- ==== Sys2Proof/Tests/Slice0.lean ====
section
/-! SUPPORT. Tests of the model, every expected value from spec/95_test_vectors.md (its vector named in the comment) or
counted from a rule by hand; and for every statement with hypotheses a concrete state and operands that meet
them. -/

open Sys2Proof Sys2Proof.Machine

namespace Sys2Proof.Tests

-- one theorem after the other: checked at once, so many kernel evaluations need more threads than there is room for
set_option Elab.async false

/-! ## Small states -/

/-- The step answers a next state with this property. -/
def onNext (o : Host.Outcome State Fault Refusal) (f : State → Bool) : Bool :=
  match o with
  | .next t => f t
  | .fault _ => false
  | .refused _ => false

/-- A voice at 48 Hz (V-RATE-5), at rest but for its envelope. -/
def vox (e : EnvState) (amp : V) : Voice := { freshVoice .default 48 with state := e, amp := amp }

/-- The reset state at 48 Hz with these voices. -/
def toy (a b c d e f g h : Voice) : State := { State.reset with fs := 48, voices := ⟨a, b, c, d, e, f, g, h⟩ }

def o : Voice := vox .off 0
def a : Voice := vox .attack (1 / 10)
def d : Voice := vox .decay (9 / 10)
def s : Voice := vox .sustain (7 / 10)
def r : Voice := vox .release (7 / 150)

/-- All voices `Off`, at 48 Hz. -/
def quiet : State := toy o o o o o o o o

/-- The same with `P_WIRE_ADSR`, at 44100 Hz. -/
def wired : State := { State.reset with cfg := { Config.default with wireAdsr := true } }

/-- A channel of capacity 2 (V-CH-1, V-CH-2). -/
def small : State := { State.reset with cfg := { Config.default with chCap := some 2 } }

/-- The voice with every register rounded to signed Q16.16. -/
def finite (v : Voice) : Voice :=
  { v with
    base := q16Round v.base, phase := q16Round v.phase, lfoPhase := q16Round v.lfoPhase, amp := q16Round v.amp
    attackRate := q16Round v.attackRate, decayRate := q16Round v.decayRate, releaseRate := q16Round v.releaseRate
    sustain := q16Round v.sustain, modWheel := q16Round v.modWheel, modRange := q16Round v.modRange
    lfoFreq := q16Round v.lfoFreq }

/-- `NOTE_ON 69, 440` and `NOTE_OFF 69` (V-DRN-2). -/
def w1 : CmdWord := 0x0145000001B80000
def w2 : CmdWord := 0x0245000000000000

/-! ## Well-formedness: one ill-formed term for each check -/

theorem test_wf_off_grid :
    (Instr.noteOn 69 (1 / 3)).wellFormed = false ∧ (Instr.paramAttack (1 / 10)).wellFormed = false ∧
    (Instr.paramDecay (1 / 131072)).wellFormed = false ∧ (Instr.paramSustain (7 / 10)).wellFormed = false ∧
    (Instr.paramRelease (3 / 10)).wellFormed = false ∧ (Instr.paramModRange (1 / 3)).wellFormed = false ∧
    (Instr.paramLfoFreq (157 / 50)).wellFormed = false := by decide +kernel

theorem test_wf_out_of_range :
    (Instr.noteOn 0 32768).wellFormed = false ∧ (Instr.noteOn 0 (-32768 - 1 / 65536)).wellFormed = false ∧
    (Instr.paramModRange 32768).wellFormed = false ∧ (Instr.paramLfoFreq (-40000)).wellFormed = false := by
  decide +kernel

theorem test_wf_reset : (Instr.reset 0).wellFormed = false ∧ (Instr.reset (-1)).wellFormed = false ∧
    (Instr.reset (1 / 3)).wellFormed = true := by decide +kernel

theorem test_wf_accepts : (Instr.noteOn 69 440).wellFormed = true ∧ (Instr.noteOn 0 (-32768)).wellFormed = true ∧
    (Instr.noteOn 127 (2147483647 / 65536)).wellFormed = true := by decide +kernel

theorem test_wf_config : Config.default.wellFormed = true ∧
    ({ Config.default with chCap := some 0 } : Config).wellFormed = false ∧
    ({ Config.default with nProd := 0 } : Config).wellFormed = false ∧
    ({ Config.default with modWheelReset := -1 } : Config).wellFormed = false ∧
    ({ Config.default with modWheelReset := 2 } : Config).wellFormed = false ∧
    ({ Config.default with lfoFreqReset := 0 } : Config).wellFormed = false := by decide +kernel

/-! ## Decoding: words written out from the encodings -/

/-- V-DEC-1 to V-DEC-4, and `OP = 1`, note 69 in bits 54..48, 440 = 0x01B8.0000 in bits 31..0. -/
theorem test_decode_note_on :
    decodeCW 0x0000000000000000 = .nop ∧ decodeCW 0x0145000001B80000 = .noteOn 69 440 ∧
    decodeCW 0x01450000FFFF0000 = .noteOn 69 (-1) ∧
    decodeCW 0x017F00007FFFFFFF = .noteOn 127 (2147483647 / 65536) := by decide +kernel

/-- V-DEC-5 to V-DEC-9. -/
theorem test_decode_note_off_and_reserved :
    decodeCW 0x0180000001B80000 = .nop ∧ decodeCW 0x0145010001B80000 = .nop ∧
    decodeCW 0x0145000101B80000 = .nop ∧ decodeCW 0x0245000000000000 = .noteOff 69 ∧
    decodeCW 0x0245000000000001 = .nop := by decide +kernel

/-- V-DEC-10 to V-DEC-14, and the ids 1, 2, 3 of R93. -/
theorem test_decode_param :
    decodeCW 0x0300000000008000 = .paramAttack (1 / 2) ∧ decodeCW 0x0301000000004CCD = .paramDecay (19661 / 65536) ∧
    decodeCW 0x030200000000B333 = .paramSustain (45875 / 65536) ∧
    decodeCW 0x0303000080000000 = .paramRelease (-32768) ∧ decodeCW 0x0304000000140000 = .paramModRange 20 ∧
    decodeCW 0x03050000000323D7 = .paramLfoFreq (205783 / 65536) ∧ decodeCW 0x0306000000010000 = .nop ∧
    decodeCW 0x0304010000140000 = .nop := by decide +kernel

/-- V-DEC-15 to V-DEC-21. -/
theorem test_decode_control :
    decodeCW 0x04017F0000000000 = .controlChange 1 127 ∧ decodeCW 0x0402640000000000 = .controlChange 2 100 ∧
    decodeCW 0x0401800000000000 = .nop ∧ decodeCW 0x04017F0000000001 = .nop ∧
    decodeCW 0x0500000000000000 = .nop ∧ decodeCW 0x0000000000000001 = .nop ∧
    decodeCW 0xFFFFFFFFFFFFFFFF = .nop := by decide +kernel

/-- R98, and the three MIDI rows of R99 with channel 3, 0 and 5. -/
theorem test_decode_ports : decodeRQ 0 = .tick ∧ decodeRQ 1 = .drain ∧
    decodeMidi 0x934500 = .ok (.midiNoteOn 3 69 0) ∧ decodeMidi 0x803C40 = .ok (.midiNoteOff 0 60 64) ∧
    decodeMidi 0xB50764 = .ok (.midiCc 5 7 100) := by decide +kernel

/-- V-MIDI-8 to V-MIDI-10. -/
theorem test_decode_unmapped_midi :
    decodeMidi 0xE00040 = .error .unmappedStatus ∧ decodeMidi 0xC00500 = .error .unmappedStatus ∧
    decodeMidi 0xF80000 = .error .unmappedStatus ∧ decodeMidi 0xA03C40 = .error .unmappedStatus ∧
    decodeMidi 0x908040 = .error .dataByteHigh ∧ decodeMidi 0x903C80 = .error .dataByteHigh ∧
    decodeMidi 0x459064 = .error .dataByteHigh := by decide +kernel

/-- V-ENC-1 and R76: bytes, first byte first. -/
theorem test_bytes : cwBytes w1 = [0x01, 0x45, 0x00, 0x00, 0x01, 0xB8, 0x00, 0x00] ∧
    decodeBytes [0x01, 0x45, 0x00, 0x00, 0x01, 0xB8, 0x00, 0x00] = .ok (.noteOn 69 440) ∧
    decodeBytes [0x90, 0x3C, 0x64] = .ok (.midiNoteOn 0 60 100) ∧
    decodeBytes [0x01] = .error .badLength := by decide +kernel

/-- V-ENC-2. -/
theorem test_encode : encode (.noteOn 60 (2143273 / 8192)) = .cw 0x013C00000105A148 ∧
    encode (.noteOff 60) = .cw 0x023C000000000000 ∧ encode (.controlChange 1 64) = .cw 0x0401400000000000 ∧
    encode (.paramLfoFreq 12) = .cw 0x03050000000C0000 := by decide +kernel

/-- R101: 261.63, 3.14, 0.1 and 0.001 as the assembler rounds them (V-WIRE-9 to 11, 14), and a tie. -/
theorem test_assembler : assembleValue (26163 / 100) = 2143273 / 8192 ∧
    assembleValue (157 / 50) = 205783 / 65536 ∧ assembleValue (1 / 10) = 3277 / 32768 ∧
    assembleValue (1 / 1000) = 33 / 32768 ∧ assembleValue (3 / 131072) = 2 / 65536 := by decide +kernel

/-! ## Fetching a row's word from the reset state -/

theorem test_fetch_words :
    onNext (step (State.reset.withFetchWord 64 0x0145000001B80000))
      (fun t => (t.voices.get 0).state = .attack ∧ (t.voices.get 0).base = 440) = true ∧
    onNext (step (State.reset.withFetchWord 8 0)) (fun t => t.samples = [0]) = true ∧
    onNext (step (State.reset.withFetchWord 8 1)) (fun t => t.draining) = true ∧
    onNext (step (State.reset.withFetchWord 24 0x904564)) (fun t => t.chan = [w1]) = true ∧
    onNext (step (State.reset.withFetchWord 0 48)) (fun t => t.fs = 48) = true := by decide +kernel

theorem test_table_words :
    decodeTableWord 64 0x0245000000000000 = some (.noteOff 69) ∧ decodeTableWord 8 0 = some .tick ∧
    decodeTableWord 8 1 = some .drain ∧ decodeTableWord 24 0xB0017F = some (.midiCc 0 1 127) ∧
    decodeTableWord 24 0xF80000 = none := by decide +kernel

/-- A block with nothing to do stays as it is (log 6). -/
theorem test_idle : step State.reset = .next State.reset := rfl

/-! ## The instructions, one step each -/

/-- V-EVT-16. -/
theorem test_nop : exec (decodeCW 0xFF00000000000000) quiet = .next quiet := rfl

/-- V-EVT-2 and V-EVT-3: pools `RSORAAAA` and `ASRDRAAA`. -/
theorem test_note_on_selects :
    onNext (exec (.noteOn 70 100) (toy r s o r a a a a)) (fun t =>
      t.voices = ⟨r, s, { o with note := 70, base := 100, state := .attack }, r, a, a, a, a⟩) = true ∧
    onNext (exec (.noteOn 70 100) (toy a s r d r a a a)) (fun t =>
      t.voices = ⟨a, s, { r with note := 70, base := 100, state := .attack }, d, r, a, a, a⟩) = true := by
  decide +kernel

/-- V-EVT-5: the note is dropped. -/
theorem test_note_on_dropped : exec (.noteOn 99 999) (toy a a d s a a a a) = .next (toy a a d s a a a a) := rfl

/-- V-EVT-6: an `Off` voice with the note never matches. -/
theorem test_note_off :
    onNext (exec (.noteOff 60) (toy { o with note := 60 } { s with note := 60 } o o o o o o)) (fun t =>
      t.voices = ⟨{ o with note := 60 }, { s with note := 60, state := .release }, o, o, o, o, o, o⟩) = true := by
  decide +kernel

/-- V-EVT-7: a releasing voice absorbs it. -/
theorem test_note_off_absorbed :
    onNext (exec (.noteOff 60) (toy { r with note := 60 } { a with note := 60 } o o o o o o))
      (fun t => (t.voices.get 1).state = .attack ∧ (t.voices.get 0).state = .release) = true := by
  decide +kernel

/-- V-EVT-10 and V-EVT-11. -/
theorem test_control_change :
    onNext (exec (.controlChange 1 64) quiet) (fun t => ∀ i, (t.voices.get i).modWheel = 64 / 127) = true ∧
    onNext (exec (.controlChange 0 5) quiet) (fun t => t = quiet) = true := by decide +kernel

/-- V-EVT-12: stored as given. -/
theorem test_mod_range :
    onNext (exec (.paramModRange (-1)) quiet) (fun t => ∀ i, (t.voices.get i).modRange = -1) = true := by
  decide +kernel

/-- V-EVT-13. -/
theorem test_lfo_freq :
    onNext (exec (.paramLfoFreq (205783 / 65536)) quiet)
      (fun t => ∀ i, (t.voices.get i).lfoFreq = 205783 / 65536 ∧ (t.voices.get i).lfoPhase = 0) = true := by
  decide +kernel

/-- V-EVT-15, V-RATE-7. -/
theorem test_attack :
    onNext (exec (.paramAttack (1 / 2)) wired) (fun t => (t.voices.get 3).attackRate = 1 / 22050) = true ∧
    onNext (exec (.paramAttack (-1)) wired) (fun t => (t.voices.get 3).attackRate = 10 / 441) = true := by
  decide +kernel

/-- V-EVT-15, V-RATE-8. -/
theorem test_decay :
    onNext (exec (.paramDecay (1 / 4)) wired) (fun t => (t.voices.get 3).decayRate = 1 / 11025) = true ∧
    onNext (exec (.paramDecay (1 / 2000)) wired) (fun t => (t.voices.get 7).decayRate = 10 / 441) = true := by
  decide +kernel

/-- V-EVT-15, V-RATE-9. -/
theorem test_release :
    onNext (exec (.paramRelease 1) wired) (fun t => (t.voices.get 3).releaseRate = 1 / 44100) = true ∧
    onNext (exec (.paramRelease (1 / 1000)) wired) (fun t => (t.voices.get 0).releaseRate = 10 / 441) = true := by
  decide +kernel

/-- V-SUS-1. -/
theorem test_sustain :
    onNext (exec (.paramSustain 2) wired) (fun t => (t.voices.get 3).sustain = 1) = true ∧
    onNext (exec (.paramSustain (-1)) wired) (fun t => (t.voices.get 3).sustain = 0) = true := by decide +kernel

/-- V-EVT-14: without `P_WIRE_ADSR` nothing changes. -/
theorem test_unwired : exec (.paramAttack (1 / 2)) quiet = .next quiet ∧
    exec (.paramDecay (1 / 4)) quiet = .next quiet ∧ exec (.paramSustain (1 / 2)) quiet = .next quiet ∧
    exec (.paramRelease 1) quiet = .next quiet := ⟨rfl, rfl, rfl, rfl⟩

/-- V-MIX-3: two voices, outputs −1 and 1/2. -/
theorem test_tick :
    onNext (exec .tick (toy { vox .sustain 1 with sustain := 1 } { vox .sustain 1 with sustain := 1, phase := 3 / 4 }
      o o o o o o)) (fun t => t.samples = [-1 / 10]) = true := by decide +kernel

/-- V-MIX-2: the first sample of `NOTE_ON 69, 440` at 44100 Hz, with V-REN-3. -/
theorem test_tick_first_sample :
    onNext (exec (.noteOn 69 440) State.reset) (fun t => onNext (exec .tick t) (fun u =>
      u.samples = [-1 / 22050] ∧ (u.voices.get 0).amp = 1 / 4410 ∧ (u.voices.get 0).phase = 22 / 2205 ∧
        (u.voices.get 0).lfoPhase = 157 / 2205000)) = true := by decide +kernel

/-- V-DRN-2: reset state, two queued words; the whole drain is four steps (log 7). -/
theorem test_drain :
    (steps 4 { State.reset with chan := [w1, w2], inputs := [.request 1] } =
      some { State.reset with voices := { State.reset.voices with
        v0 := { Voice.reset with state := .release, note := 69, base := 440 } } }) := by decide +kernel

/-- V-DRN-4: a word pushed after the pop that found the channel empty waits. -/
theorem test_drain_late_push :
    steps 4 { State.reset with chan := [w2], inputs := [.request 1, .engine, .engine, .push 1 w1] } =
      some { State.reset with chan := [w1], results := [(1, .ok)] } := by decide +kernel

/-- V-RST-1. -/
theorem test_reset :
    onNext (exec (.reset 44100) { toy a s d r o o o o with chan := [w1], draining := true })
      (fun t => t = State.reset) = true := by decide +kernel

/-- V-RST-2, V-RATE-4. -/
theorem test_reset_rates : exec (.reset 0) quiet = .refused .sampleRateNotPositive ∧
    exec (.reset (-1)) quiet = .refused .sampleRateNotPositive ∧
    onNext (exec (.reset 1000) quiet) (fun t => (t.voices.get 5).attackRate = 1 / 100 ∧
      (t.voices.get 5).releaseRate = 1 / 300) = true := ⟨rfl, rfl, by decide +kernel⟩

/-- V-CH-1, V-CH-2. -/
theorem test_push :
    step { small with inputs := [.push 0 w1] } = .next { small with chan := [w1], results := [(0, .ok)] } ∧
    step { small with chan := [w1, w2], inputs := [.push 0 w1] } =
      .next { small with chan := [w1, w2], results := [(0, .full)] } ∧
    step { small with inputs := [.push 2 w1] } = .refused .noSuchProducer := ⟨rfl, rfl, rfl⟩

/-- V-MIDI-2, V-MIDI-3. -/
theorem test_midi_note_on :
    onNext (exec (.midiNoteOn 0 60 100) quiet) (fun t => t.chan = [0x013C00000105A025]) = true ∧
    onNext (exec (.midiNoteOn 0 127 127) quiet) (fun t => t.chan = [0x017F000030FFDA9D]) = true := by decide +kernel

/-- V-MIDI-4. -/
theorem test_midi_velocity_zero :
    onNext (exec (.midiNoteOn 3 69 0) quiet) (fun t => t.chan = [0x0245000000000000]) = true := by decide +kernel

/-- V-MIDI-5. -/
theorem test_midi_note_off :
    onNext (exec (.midiNoteOff 0 60 64) quiet) (fun t => t.chan = [0x023C000000000000]) = true := by decide +kernel

/-- V-MIDI-6, V-MIDI-7. -/
theorem test_midi_cc :
    onNext (exec (.midiCc 0 1 127) quiet) (fun t => t.chan = [0x04017F0000000000]) = true ∧
    onNext (exec (.midiCc 5 7 100) quiet) (fun t => t.chan = [0x0407640000000000]) = true := by decide +kernel

/-! ## The voice -/

/-- V-ENV-2, V-ENV-3, V-ENV-5, V-ENV-7, V-ENV-9: equalities and overshoots. -/
theorem test_envelope :
    envStep .exact { vox .attack (4409 / 4410) with attackRate := 1 / 4410 } =
      { vox .decay 1 with attackRate := 1 / 4410 } ∧
    envStep .exact (vox .attack (9 / 10)) = vox .decay 1 ∧
    envStep .exact { vox .decay (3088 / 4410) with decayRate := 1 / 4410 } =
      { vox .sustain (7 / 10) with decayRate := 1 / 4410 } ∧
    envStep .exact { vox .release 0 with phase := 1 / 2 } = vox .off 0 ∧
    envStep .exact (vox .decay (19 / 24)) = vox .sustain (7 / 10) := by decide +kernel

/-- V-LFO-1 to V-LFO-3, V-LFO-5. -/
theorem test_lfo :
    sinq (1 / 4) = 1 ∧ lfoAdvance .exact 48 { o with lfoPhase := 1 / 4, lfoFreq := 12 } = 1 / 2 ∧
    sinq (3 / 4) = -1 ∧ lfoAdvance .exact 48 { o with lfoPhase := 3 / 4, lfoFreq := 12 } = 0 ∧
    lfoAdvance .exact 48 { o with lfoFreq := -12 } = 3 / 4 ∧ lfoAdvance .exact 48 { o with lfoFreq := 100 } = 1 / 12 := by
  decide +kernel

/-- V-MOD-1, V-MOD-2, V-MOD-4, V-MOD-5. -/
theorem test_modulation : effFreq .exact 10 (modulation .exact 1 1 20) = 30 ∧ effFreq .exact 10 (modulation .exact (-1) 1 20) = 0 ∧
    effFreq .exact 10 (modulation .exact 1 (64 / 127) 20) = 2550 / 127 ∧ effFreq .exact (-5) (modulation .exact 1 0 20) = 0 := by
  decide +kernel

/-- V-REN-2. -/
theorem test_render :
    renderVoice .exact false 48 { vox .attack (5 / 24) with
        phase := 5 / 24, lfoPhase := 1 / 4, lfoFreq := 12, modWheel := 1, base := 10 } =
      (-35 / 144, { vox .attack (5 / 12) with
        phase := 5 / 6, lfoPhase := 1 / 2, lfoFreq := 12, modWheel := 1, base := 10 }) := by decide +kernel

/-- V-REN-4, both settings. -/
theorem test_render_off :
    renderVoice .exact false 44100 { Voice.reset with
        state := .release, amp := 1 / 13230, phase := 1 / 2, lfoPhase := 1 / 4, base := 440 } =
      (0, { Voice.reset with phase := 22 / 2205, lfoPhase := 551407 / 2205000, base := 440 }) ∧
    renderVoice .exact true 44100 { Voice.reset with
        state := .release, amp := 1 / 13230, phase := 1 / 2, lfoPhase := 1 / 4, base := 440 } =
      (0, { Voice.reset with lfoPhase := 1 / 4, base := 440 }) := by decide +kernel

/-! ## Witnesses: hypotheses that are met -/

/-- DecoderFollowsMaskTable: a word and a message in each kind of clause. -/
theorem witness_mask : (∃ x ∈ cwRows, x.mnemonic ≠ "NOP" ∧ x.selects w1 = true) ∧
    (∀ x ∈ cwRows, x.selects 0x0500000000000000 = false) ∧
    (∃ x ∈ midiRows, x.mnemonic = "MIDI.CC" ∧ x.selects 0xBF7F7F = true) ∧
    (∀ x ∈ midiRows, x.selects 0xB08000 = false) := by decide +kernel

/-- ReservedWordsDoNothing: the boundary of each reserved range of R96. -/
theorem witness_reserved :
    ([0, 0x0500000000000000, 0x0000000000000001, 0x0306000000000000, 0x0180000000000000,
      0x0280000000000000, 0x0480000000000000, 0x0400800000000000, 0x0100010000000000, 0x0305010000000000,
      0x0200010000000000, 0x0000000100000000, 0x0400000000000001, 0x0200000000000001] : List CmdWord).all
      (fun w => decodeCW w = .nop) = true := by decide +kernel

/-- ReservedWordsDoNothing: a reserved word is the oldest on the engine's turn. -/
theorem witness_reserved_popped :
    let x : State := { quiet with draining := true, chan := [0x0306000000000000, w1] }
    decodeCW 0x0306000000000000 = .nop ∧ x.engineTurn = true ∧ x.chan = 0x0306000000000000 :: [w1] := by
  decide +kernel

/-- DecodeOfEncodeIsIdentity: the ends of the payload range. -/
theorem witness_round_trip : (Instr.paramLfoFreq (-32768)).wellFormed = true ∧
    (Instr.noteOn 127 (2147483647 / 65536)).wellFormed = true ∧ (Instr.midiCc 15 127 127).wellFormed = true ∧
    (Instr.reset (1 / 2)).wellFormed = true := by decide +kernel

/-- EncodeOfDecodeIsIdentity. -/
theorem witness_words : (∃ x ∈ cwRows, x.selects 0x0305000080000000 = true) ∧
    decodeMidi 0xBF7F7F = .ok (.midiCc 15 127 127) := by decide +kernel

/-- UnmappedMidiYieldsNoEvent: a message without an event at the last producer, and messages with one. -/
theorem witness_midi :
    let x : State := { quiet with inputs := [.midi 1 0xE00040] }
    (midiToCmd 0xE00040 = none ∧ 1 < x.cfg.nProd ∧ x.pending = .midi 1 0xE00040 :: []) ∧
    midiToCmd 0x904564 = some w1 ∧ midiToCmd 0x934500 = some w2 ∧
    midiToCmd 0xB0017F = some 0x04017F0000000000 := by decide +kernel

/-- StepRunsDecodedInstruction, first clause, and the other statements about a pop: the engine's turn with
an empty schedule, with its own mark, and with a waiting request. -/
theorem witness_turn :
    (let x : State := { quiet with draining := true, chan := [w1] }
     x.engineTurn = true ∧ x.chan = w1 :: []) ∧
    (let x : State := { quiet with draining := true, chan := [w1, w2], inputs := [.engine] }
     x.engineTurn = true ∧ x.chan = w1 :: [w2]) ∧
    (let x : State := { quiet with draining := true, chan := [w1], inputs := [.request 0] }
     x.engineTurn = true ∧ x.chan = w1 :: []) ∧
    ({ quiet with draining := true, chan := [w1], inputs := [.push 0 w2] } : State).engineTurn = false := by
  decide +kernel

/-- StepRunsDecodedInstruction: a request, a reset and a message at the head of the schedule, and a request that
comes round again. -/
theorem witness_heads :
    (let x : State := { quiet with inputs := [.request 1] }
     x.draining = false ∧ x.pending = .request 1 :: []) ∧
    (let x : State := { quiet with inputs := [.reset 48, .request 0] }
     x.draining = false ∧ x.pending = .reset 48 :: [.request 0]) ∧
    (let x : State := { quiet with inputs := [.midi 1 0x803C40] }
     1 < x.cfg.nProd ∧ x.pending = .midi 1 0x803C40 :: [] ∧ decodeMidi 0x803C40 = .ok (.midiNoteOff 0 60 64)) ∧
    (let x : State := { quiet with repeats := [.request 1, .request 0] }
     x.draining = false ∧ x.pending = .request 1 :: [.request 0]) := by
  decide +kernel

/-- DrainEndsAtFirstEmptyPop: an empty channel on the engine's turn, and a step that ends the drain. -/
theorem witness_drain_end :
    let x : State := { quiet with draining := true }
    x.engineTurn = true ∧ x.chan = [] ∧ x.draining = true ∧ step x = .next quiet ∧ quiet.draining = false :=
  ⟨by decide +kernel, rfl, rfl, rfl, rfl⟩

/-- EveryAdmittedStepCompletes: an admitted head, no head, and an operand that is refused, at the bound. -/
theorem witness_admitted :
    (∀ l ∈ ([[], [.push 1 w1], [.reset (1 / 3)]] : List (List Input)),
      let x : State := { quiet with inputs := l }
      ∀ y ∈ x.pending.head?, y.admitted x.cfg = true) ∧
    (let x : State := { quiet with repeats := [.midi 0 0xF80000] }
     ∀ y ∈ x.pending.head?, y.admitted x.cfg = true) ∧
    (0 : V) ≤ 0 ∧ (-1 : V) ≤ 0 ∧ (0 : V) < 1 / 3 ∧ quiet.cfg.num = .exact := by decide +kernel

/-- NoteOnAllocatesVoice: the first `Off` voice, the first `Release` voice, and none. -/
theorem witness_note_on :
    (((toy r s o o a a a a).voices.get 2).state = .off ∧
      ∀ j < (2 : VoiceIx), ((toy r s o o a a a a).voices.get j).state ≠ .off) ∧
    ((∀ j, ((toy a s r d r a a r).voices.get j).state ≠ .off) ∧
      ((toy a s r d r a a r).voices.get 2).state = .release ∧
      ∀ j < (2 : VoiceIx), ((toy a s r d r a a r).voices.get j).state ≠ .release) ∧
    (∀ j, ((toy a s d d s a a a).voices.get j).state ≠ .off ∧
      ((toy a s d d s a a a).voices.get j).state ≠ .release) := by decide +kernel

/-- NoteOffReleasesFirstMatch: the last voice matches; and no voice does. -/
theorem witness_note_off :
    (((toy o o o o o o o { s with note := 127 }).voices.get 7).note = 127 ∧
      ((toy o o o o o o o { s with note := 127 }).voices.get 7).state ≠ .off ∧
      ∀ j < (7 : VoiceIx), ¬(((toy o o o o o o o { s with note := 127 }).voices.get j).note = 127 ∧
        ((toy o o o o o o o { s with note := 127 }).voices.get j).state ≠ .off)) ∧
    (∀ i, ¬((quiet.voices.get i).note = 0 ∧ (quiet.voices.get i).state ≠ .off)) := by decide +kernel

/-- ReleasingVoiceAbsorbsNoteOff: the later voice in `Attack` (V-EVT-7), `Decay` and `Sustain`. -/
theorem witness_absorb :
    ∀ p ∈ [(EnvState.attack, toy r a o o o o o o), (.decay, toy r d o o o o o o), (.sustain, toy r s o o o o o o)],
      (0 : VoiceIx) < 1 ∧ (p.2.voices.get 0).note = 0 ∧ (p.2.voices.get 0).state = .release ∧
      (∀ j < (0 : VoiceIx), ¬((p.2.voices.get j).note = 0 ∧ (p.2.voices.get j).state ≠ .off)) ∧
      (p.2.voices.get 1).note = 0 ∧ (p.2.voices.get 1).state = p.1 ∧
      p.1 ∈ [EnvState.attack, .decay, .sustain] := by decide +kernel

/-- FirstSampleOfNote, and every statement that assumes the ranges or the invariant. -/
theorem witness_first_sample : State.reset.Inv ∧ (toy s a d r s o o o).Ranges ∧
    ((toy s a d r s o o o).voices.get 5).state = .off ∧
    (∀ j < (5 : VoiceIx), ((toy s a d r s o o o).voices.get j).state ≠ .off) ∧
    ((toy s a d r s o o o).voices.get 5).attackRate < 1 ∧
    ((toy s a d r s o o o).voices.get 5).Representable (toy s a d r s o o o).num :=
  ⟨by decide +kernel, by decide +kernel, by decide +kernel, by decide +kernel, by decide +kernel, fun _ _ => rfl⟩

/-- ControlChangeSetsModWheel: both ends of the value. In a system of the machine whose arithmetic is outside the
laws altogether, the wheel depth and the integers are right all the same. -/
theorem witness_wheel : (127 : BitVec 7) = 127 ∧ (0 : BitVec 7) = 0 ∧
    (let N := ({ q16 with mem := fun _ => false, div := fun _ _ => 9, ofInt := fun _ => 9 } : NumOps).toLawful
     (N.div 0 127, N.div 1 127, N.div 127 127, N.ofInt 64, N.mem 127) = (0, 0, 1, 64, true)) := by decide +kernel

/-- ControlChangeSetsModWheel, ModulationParamsAreStoredAsGiven, RateParamsFollowSwitch, SustainParamIsClamped,
TickMixesEveryVoice, ExactProfileIsRationalArithmetic: both sides of each switch, in `EXACT`. -/
theorem witness_switches : (1 : BitVec 7) = 1 ∧ (0 : BitVec 7) ≠ 1 ∧ wired.cfg.wireAdsr = true ∧
    wired.cfg.num = .exact ∧ quiet.cfg.wireAdsr = false ∧ quiet.cfg.num = .exact ∧
    (1 / 22050 : V) = wired.num.div 1 (wired.num.mul (max (wired.num.ofWire (1 / 2)) wired.num.minTime) wired.fs) ∧
    (5 / 24 : V) = quiet.num.div 1 (quiet.num.mul (max (quiet.num.ofWire (1 / 10)) quiet.num.minTime) quiet.fs) := by
  decide +kernel

/-- ResendingParamsIsIdempotent, its second clause: a `NOTE_OFF` whose note only `Off` voices hold. -/
theorem witness_resent : ∀ i, ¬((quiet.voices.get i).note = 0 ∧ (quiet.voices.get i).state ≠ .off) := by
  decide +kernel

/-- ResendingParamsIsIdempotent, RegistersHaveOnlyTheirWriters, SampleRateIsWrittenOnlyByReset and
OnlyReleaseReachesOff: instructions that complete and are no `RESET`. -/
theorem witness_completes : ∃ t, exec (.paramAttack (1 / 2)) wired = .next t ∧
    (∀ fs, Instr.paramAttack (1 / 2) ≠ .reset fs) ∧ ∃ u, exec .tick t = .next u :=
  ⟨_, rfl, fun _ h => (by cases h), _, rfl⟩

/-- EnvelopeStepFollowsTransitionTable: each row, at its boundary, in `EXACT`. -/
theorem witness_envelope :
    let add := NumOps.exact.add
    let sub := NumOps.exact.sub
    (let v := vox .attack (19 / 24); v.state = .attack ∧ 1 ≤ add v.amp v.attackRate) ∧
    (let v := vox .attack 0; v.state = .attack ∧ add v.amp v.attackRate < 1) ∧
    (let v := vox .decay (109 / 120); v.state = .decay ∧ sub v.amp v.decayRate ≤ v.sustain) ∧
    (let v := vox .decay 1; v.state = .decay ∧ v.sustain < sub v.amp v.decayRate) ∧
    (vox .sustain 1).state = .sustain ∧
    (let v := vox .release (5 / 72); v.state = .release ∧ sub v.amp v.releaseRate ≤ 0) ∧
    (let v := vox .release 1; v.state = .release ∧ 0 < sub v.amp v.releaseRate) ∧
    (vox .off 0).state = .off := by decide +kernel

/-- RenderedSampleFollowsStepOrder and SampleThatReachesOff: `Off`, the early exit, and the full sample. -/
theorem witness_render : NumOps.exact.Lawful ∧ o.state = .off ∧ r.state ≠ .off ∧ (envStep .exact r).state = .off ∧
    r.state = .release ∧ NumOps.exact.sub r.amp r.releaseRate ≤ 0 ∧ s.state ≠ .off ∧ (envStep .exact s).state ≠ .off :=
  ⟨NumOps.exact_lawful, by decide +kernel⟩

/-- RenderingKeepsVoiceRanges: a voice in range with a rate of zero, in `EXACT` and in signed Q16.16. -/
theorem witness_ranges :
    (let v : Voice := { s with decayRate := 0 }
     NumOps.exact.Lawful ∧ NumOps.exact.KeepsSigns ∧ v.Representable .exact ∧ v.InRange ∧ 0 ≤ v.sustain ∧
       v.sustain ≤ 1 ∧ 0 ≤ v.attackRate ∧ 0 ≤ v.decayRate ∧ 0 ≤ v.releaseRate ∧ v.OffSilent) ∧
    (let v : Voice := { finite s with decayRate := 0, releaseRate := 1 / 65536 }
     q16.Lawful ∧ q16.KeepsSigns ∧ v.Representable q16 ∧ v.InRange ∧ 0 ≤ v.sustain ∧
       v.sustain ≤ 1 ∧ 0 ≤ v.attackRate ∧ 0 ≤ v.decayRate ∧ 0 ≤ v.releaseRate ∧ v.OffSilent) :=
  ⟨⟨NumOps.exact_lawful, NumOps.exact_keepsSigns, fun _ _ => rfl, by decide +kernel⟩,
    q16_lawful, q16_keepsSigns, by unfold Voice.Representable; decide +kernel, by decide +kernel⟩

/-- AttackReachesOneOnTime: five samples at 48 Hz, as in program P3; and one from amplitude 1. -/
theorem witness_attack : (vox .attack 0).state = .attack ∧ (vox .attack 0).amp ≤ 1 ∧
    0 < (vox .attack 0).attackRate ∧
    5 = max 1 ⌈(1 - (vox .attack 0).amp) / (vox .attack 0).attackRate⌉₊ ∧
    1 = max 1 ⌈(1 - (vox .attack 1).amp) / (vox .attack 1).attackRate⌉₊ := by
  refine ⟨rfl, by decide +kernel, by decide +kernel, ?_, ?_⟩
  · rw [show (1 - (vox .attack 0).amp) / (vox .attack 0).attackRate = 24 / 5 by decide +kernel,
      show ⌈(24 / 5 : V)⌉₊ = 5 by rw [Nat.ceil_eq_iff] <;> norm_num]
    rfl
  · rw [show (1 - (vox .attack 1).amp) / (vox .attack 1).attackRate = 0 by decide +kernel, Nat.ceil_zero]
    rfl

/-- DecayReachesSustainOnTime: 0.1 s from 1 to 7/10 at 48 Hz, rounded up to two samples. -/
theorem witness_decay : (vox .decay 1).state = .decay ∧ (vox .decay 1).amp = 1 ∧ (vox .decay 1).sustain ≤ 1 ∧
    (0 : V) < 48 ∧ (vox .decay 1).decayRate = rateOf .exact (1 / 10) 48 ∧
    2 = max 1 ⌈(1 - (vox .decay 1).sustain) * (max (1 / 10) (1 / 1000) * 48)⌉₊ := by
  refine ⟨rfl, rfl, by decide +kernel, by norm_num, by decide +kernel, ?_⟩
  rw [show (1 - (vox .decay 1).sustain) * (max (1 / 10) (1 / 1000) * 48) = 36 / 25 by decide +kernel,
    show ⌈(36 / 25 : V)⌉₊ = 2 by rw [Nat.ceil_eq_iff] <;> norm_num]
  rfl

/-- ReleaseReachesOffOnTime: 0.3 s from 7/10 at 44100 Hz, 9261 samples (E4); and one from a silent voice. -/
theorem witness_release :
    let v : Voice := { Voice.reset with state := .release, amp := 7 / 10 }
    let z : Voice := { Voice.reset with state := .release }
    (v.state = .release ∧ 0 ≤ v.amp ∧ (0 : V) < 44100 ∧ v.releaseRate = rateOf .exact (3 / 10) 44100 ∧
      9261 = max 1 ⌈v.amp * (max (3 / 10) (1 / 1000) * 44100)⌉₊) ∧
    (z.state = .release ∧ 0 ≤ z.amp ∧ z.releaseRate = rateOf .exact (3 / 10) 44100 ∧
      1 = max 1 ⌈z.amp * (max (3 / 10) (1 / 1000) * 44100)⌉₊) := by
  refine ⟨⟨rfl, by decide +kernel, by norm_num, by decide +kernel, ?_⟩, rfl, by decide +kernel, by decide +kernel, ?_⟩
  · rw [show (7 / 10 : V) * (max (3 / 10) (1 / 1000) * 44100) = ((9261 : Nat) : V) by decide +kernel,
      Nat.ceil_natCast]
    rfl
  · rw [show Voice.reset.amp * (max (3 / 10) (1 / 1000) * 44100) = ((0 : Nat) : V) by decide +kernel,
      Nat.ceil_natCast]
    rfl

/-- SampleStaysInOutputRange: five voices sound; and the state of V-MIX-4 with eight. -/
theorem witness_output :
    (let x := toy s a d r s o o o
     x.Inv ∧ x.cfg.num = .exact ∧ onNext (exec .tick x) (fun _ => true) = true ∧
       (x.voices.toList.filter fun v => !inState .off v).length = 5) ∧
    (let v := { vox .sustain 1 with sustain := 1 }
     (toy v v v v v v v v).Inv ∧ (toy v v v v v v v v).cfg.num = .exact ∧
       onNext (exec .tick (toy v v v v v v v v)) (fun t => t.samples = [-8 / 5]) = true) := by decide +kernel

/-- SilentUntilNoteOn, and an instruction other than `NOTE_ON` that completes. -/
theorem witness_silent : (∀ i, (quiet.voices.get i).state = .off) ∧
    exec .drain quiet = .next (quiet.setDraining true) ∧ ∀ n f, Instr.drain ≠ .noteOn n f :=
  ⟨by decide +kernel, rfl, fun _ _ h => by cases h⟩

/-- ResetWritesEveryRegister. -/
theorem witness_reset : (0 : V) < 1 / 3 ∧ quiet.num.mem (1 / 3) = true ∧ quiet.num.mem quiet.cfg.modWheelReset = true ∧
    quiet.num.mem quiet.cfg.lfoFreqReset = true ∧ quiet.cfg.num = .exact := by decide +kernel

/-- EveryAdmittedStepCompletes, its refusals (R241), shown in signed Q16.16: 8000 Hz, `MODWHEEL_RESET = 0` and 12 are values;
44100 Hz, `LFO_FREQ_RESET = 3.14` and half the grid's step are not. -/
theorem witness_refusal : q16.mem 44100 = false ∧ q16.mem 8000 = true ∧ q16.mem Config.default.modWheelReset = true ∧
    q16.mem Config.default.lfoFreqReset = false ∧ q16.mem 12 = true ∧ q16.mem (1 / 131072) = false := by decide +kernel

/-- DrainExecutesQueueInOrder: four ways the schedule may go on. -/
theorem witness_drain :
    (∀ rest ∈ ([[], [.request 0], [.request 1, .push 0 w1], [.reset 48]] : List (List Input)),
      let x : State := { quiet with chan := [w1, w2], inputs := .request 1 :: rest }
      x.draining = false ∧ x.pending = .request 1 :: rest ∧ ({ x with inputs := rest } : State).drainsAlone = true) ∧
    (let x : State := { quiet with chan := [w1], repeats := [.request 1, .request 0] }
     x.draining = false ∧ x.pending = .request 1 :: [.request 0] ∧
       ({ x with inputs := [.request 0] } : State).drainsAlone = true) := by
  decide +kernel

/-- WordPushedDuringDrainIsExecutedInIt: no push; and pushes that each take the last free place, a pop between
them. Two such pushes in a row, and a pop of an empty channel, are no such schedule. -/
theorem witness_drain_push :
    (let x : State := { quiet with draining := true, chan := [w1, w2] }
     x.draining = true ∧ x.inputs = [] ++ [] ∧ drainSchedule x.cfg x.chan.length [] = true ∧ x.drainsAlone = true) ∧
    (let l : List Input := [.push 0 w2, .engine, .push 1 w1]
     let x : State := { small with draining := true, chan := [w1], inputs := l ++ [.request 0] }
     x.draining = true ∧ x.inputs = l ++ [.request 0] ∧ drainSchedule x.cfg x.chan.length l = true ∧
       ({ x with inputs := [.request 0] } : State).drainsAlone = true) ∧
    drainSchedule small.cfg 1 [.push 0 w2, .push 1 w1] = false ∧ drainSchedule small.cfg 0 [.engine] = false := by
  decide +kernel

/-- WordPushedDuringDrainIsExecutedInIt, run: one queued word, one push after its pop, `1 + 2·1 + 1` steps. -/
theorem test_drain_push :
    steps 4 { State.reset with draining := true, chan := [w1], inputs := [.engine, .push 0 w2] } =
      some { State.reset with
        voices := { State.reset.voices with v0 := { Voice.reset with state := .release, note := 69, base := 440 } }
        results := [(0, .ok)] } := by decide +kernel

/-- DrainEndsUnderFinitelyManyPushes: pushes by producers that exist, and requests that come round for ever. -/
theorem witness_finite_pushes :
    let x : State := { quiet with
      draining := true, chan := [w1], inputs := [.push 0 w2, .engine, .midi 1 0x904564], repeats := [.request 1, .engine] }
    x.draining = true ∧ (∀ y ∈ x.inputs, y.byProducer = true → y.admitted x.cfg = true) ∧
      (∀ y ∈ x.repeats, y.byProducer = false) := by decide +kernel

/-- EndlessPushesKeepDrainOpen: with room for one word only, and with an empty channel. -/
theorem witness_endless_pushes :
    let x : State := { quiet with
      draining := true, cfg := { Config.default with chCap := some 1 }, repeats := [.push 1 w1, .engine] }
    x.draining = true ∧ x.inputs = [] ∧ x.repeats = [.push 1 w1, .engine] ∧ 1 < x.cfg.nProd ∧
      x.cfg.chCap ≠ some 0 := by decide +kernel

/-- NumberSystemsSatisfyLaws: systems within the laws, one of them finite. -/
theorem witness_lawful : NumOps.exact.Lawful ∧ q16.Lawful := ⟨NumOps.exact_lawful, q16_lawful⟩

/-- RegistersStayRepresentable: a state of `EXACT` and a step of it. -/
theorem witness_representable :
    let x : State := { toy s a d r o o o o with inputs := [.request 0] }
    x.Representable ∧ ∃ t, step x = .next t :=
  ⟨⟨fun _ _ _ => rfl, rfl, fun _ _ => rfl⟩, _, rfl⟩

/-- PushAppendsOrAnswersFull and MidiFormsPushOneCommand: the last free place, ∞, and a full channel. -/
theorem witness_push :
    (let x : State := { small with chan := [w1], inputs := [.push 1 w2] }
     1 < x.cfg.nProd ∧ x.pending = .push 1 w2 :: [] ∧ ∀ n, x.cfg.chCap = some n → x.chan.length < n) ∧
    (let x : State := { quiet with chan := [w1, w2, w1] }
     ∀ n, x.cfg.chCap = some n → x.chan.length < n) ∧
    (let x : State := { small with chan := [w1, w2], inputs := [.push 0 w1] }
     0 < x.cfg.nProd ∧ x.pending = .push 0 w1 :: [] ∧ ∃ n, x.cfg.chCap = some n ∧ n ≤ x.chan.length) ∧
    (1 : BitVec 7) ≠ 0 :=
  ⟨⟨by decide, rfl, fun n h => (by injection h with h; subst h; decide)⟩, fun n h => (by cases h),
    ⟨by decide, rfl, 2, rfl, by decide⟩, by decide⟩

/-- ChannelIsFirstInFirstOut, StepKeepsInvariant, ContractKeepsModulationRanges and StepKeepsRanges: a push, a pop
and a reset, each from a state that meets the invariant and the contract. -/
theorem witness_steps :
    ∀ x ∈ ([{ quiet with inputs := [.push 1 0x0304000000140000] }, { quiet with draining := true, chan := [w1, w2] },
        { quiet with inputs := [.reset 48], chan := [w1] }] : List State),
      x.num = .exact ∧ x.num.KeepsSigns ∧ x.num.PositiveRates ∧ x.num.NonnegRates ∧ x.Representable ∧ x.Inv ∧
        x.cfg.wellFormed = true ∧ x.InContract ∧ ∃ t, step x = .next t := by
  intro x hx
  simp only [List.mem_cons, List.not_mem_nil, or_false] at hx
  rcases hx with rfl | rfl | rfl <;>
    exact ⟨rfl, NumOps.exact_keepsSigns, NumOps.exact_positiveRates, NumOps.exact_positiveRates.nonneg,
      ⟨fun _ _ _ => rfl, rfl, fun _ _ => rfl⟩, by decide +kernel, by decide +kernel, by decide +kernel, _, rfl⟩

/-- StepKeepsInvariant, StepKeepsRanges and RenderingKeepsVoiceRanges: where the machine's number system is signed
Q16.16, a finite format, it has the properties they ask for. -/
theorem witness_finite (k : Nat) (h : Config.freeNum k = q16) :
    (numOps (.free k)).KeepsSigns ∧ (numOps (.free k)).PositiveRates ∧ (numOps (.free k)).NonnegRates := by
  rw [show numOps (.free k) = q16 from (congrArg NumOps.toLawful h).trans (NumOps.toLawful_of_lawful q16_lawful)]
  exact ⟨q16_keepsSigns, q16_positiveRates, q16_positiveRates.nonneg⟩

/-- ProducersTouchOnlyTheChannel: a push and a message, each with its next state. -/
theorem witness_producer :
    (let x : State := { quiet with inputs := [.midi 0 0x904564] }
     (∃ y ∈ x.pending.head?, y.byProducer = true) ∧ ∃ t, step x = .next t) ∧
    (let x : State := { small with inputs := [.push 1 w1], draining := true }
     (∃ y ∈ x.pending.head?, y.byProducer = true) ∧ ∃ t, step x = .next t) :=
  ⟨⟨⟨_, rfl, rfl⟩, _, rfl⟩, ⟨_, rfl, rfl⟩, _, rfl⟩

/-- NoEventTakesEffectWithoutDrain. -/
theorem witness_no_drain :
    let l : List Input := [.push 0 w1, .request 0, .midi 1 0x904564, .request 0]
    let x : State := { toy s a o o o o o o with inputs := l }
    x.draining = false ∧ x.inputs = l ∧ (∀ y ∈ l, y.byProducer = true ∨ y = .request 0) ∧
      ∀ y ∈ l, y.admitted x.cfg = true := by decide +kernel

/-- OnlyReleaseReachesOff: a voice that reaches `Off`, and one that leaves it. -/
theorem witness_off :
    (((toy r o o o o o o o).voices.get 0).state ≠ .off ∧
      onNext (exec .tick (toy r o o o o o o o)) (fun t => (t.voices.get 0).state = .off) = true) ∧
    ((quiet.voices.get 0).state = .off ∧
      onNext (exec (.noteOn 1 1) quiet) (fun t => (t.voices.get 0).state ≠ .off) = true) := by decide +kernel

/-- BufferDrainsThenDeliversSamples: no samples, and three after two queued words. -/
theorem witness_buffer :
    (let x : State := { quiet with inputs := buffer 0 }
     x.draining = false ∧ x.inputs = [.request 1] ∧
       ({ x with inputs := tickTimes 0 } : State).drainsAlone = true) ∧
    (let x : State := { quiet with chan := [w1, w2], inputs := buffer 3 }
     x.draining = false ∧ x.inputs = [.request 1, .request 0, .request 0, .request 0] ∧
       ({ x with inputs := tickTimes 3 } : State).drainsAlone = true ∧ (steps 7 x).isSome = true) := by
  decide +kernel

end Sys2Proof.Tests
end

/-! PROOFS. The family of spec/00_scope.md: the number system and the values the machine holds (R8 to R12, R21), and
which instruction a step runs (R14). -/

namespace Sys2Proof.Machine

/-! ## Voices whose registers are values of the number system (R21) -/

section VoiceOperations
variable {N : NumOps} {v : Voice}

theorem Voice.representable_iff : v.Representable N ↔
    N.mem v.base = true ∧ (N.mem v.amp = true ∧ N.mem v.phase = true ∧ N.mem v.lfoPhase = true) ∧
      N.mem v.attackRate = true ∧ N.mem v.decayRate = true ∧ N.mem v.releaseRate = true ∧ N.mem v.sustain = true ∧
      N.mem v.modWheel = true ∧ N.mem v.modRange = true ∧ N.mem v.lfoFreq = true := by
  simp only [Voice.Representable, List.mem_cons, List.not_mem_nil, or_false, forall_eq_or_imp, forall_eq]
  tauto

/-- The registers that a rendered sample writes may be any values (R190 side effects). -/
theorem Voice.Representable.write_signal (hv : v.Representable N) (e : EnvState) {amp phase lfoPhase : V}
    (ha : N.mem amp = true) (hp : N.mem phase = true) (hl : N.mem lfoPhase = true) :
    Voice.Representable N { v with state := e, amp := amp, phase := phase, lfoPhase := lfoPhase } := by
  obtain ⟨hbase, -, hsettings⟩ := Voice.representable_iff.1 hv
  exact Voice.representable_iff.2 ⟨hbase, ⟨ha, hp, hl⟩, hsettings⟩

/-- The seven broadcast registers of R39 may be any values. -/
theorem Voice.Representable.write_settings (hv : v.Representable N) {a d r s w m l : V}
    (h : ∀ x ∈ [a, d, r, s, w, m, l], N.mem x = true) :
    Voice.Representable N { v with
      attackRate := a, decayRate := d, releaseRate := r, sustain := s, modWheel := w, modRange := m, lfoFreq := l } := by
  obtain ⟨hbase, hsignal, -⟩ := Voice.representable_iff.1 hv
  exact Voice.representable_iff.2 ⟨hbase, hsignal, by simpa using h⟩

/-- R120. -/
theorem voiceNoteOn_representable (hv : v.Representable N) (n : BitVec 7) {f : V} (hf : N.mem f = true) :
    (voiceNoteOn n f v).Representable N := by
  obtain ⟨-, hrest⟩ := Voice.representable_iff.1 hv
  exact Voice.representable_iff.2 ⟨hf, hrest⟩

/-- R121. -/
theorem voiceNoteOff_representable (hv : v.Representable N) : (voiceNoteOff v).Representable N := by
  obtain ⟨-, ⟨ha, hp, hl⟩, -⟩ := Voice.representable_iff.1 hv
  exact hv.write_signal .release ha hp hl

theorem maxV_mem {a b : V} (ha : N.mem a = true) (hb : N.mem b = true) : N.mem (maxV a b) = true := by
  unfold maxV; split <;> assumption

theorem minV_mem {a b : V} (ha : N.mem a = true) (hb : N.mem b = true) : N.mem (minV a b) = true := by
  unfold minV; split <;> assumption

variable (hN : N.Lawful)
include hN

theorem rateOf_mem (seconds fs : V) : N.mem (rateOf N seconds fs) = true := hN.div_mem _ _

/-- R130: each arm writes an exact bound, the sustain level, a sum or a difference. -/
theorem envStep_representable (hv : v.Representable N) : (envStep N v).Representable N := by
  obtain ⟨-, ⟨-, hp, hl⟩, -, -, -, hsustain, -⟩ := Voice.representable_iff.1 hv
  rcases envStep_cases N v with
    ⟨-, -, h⟩ | ⟨-, -, h⟩ | ⟨-, -, h⟩ | ⟨-, -, h⟩ | ⟨-, h⟩ | ⟨-, -, h⟩ | ⟨-, -, h⟩ | ⟨-, h⟩ <;> rw [h]
  · exact hv.write_signal _ hN.one_mem hp hl
  · exact hv.write_signal _ (hN.add_mem _ _) hp hl
  · exact hv.write_signal _ hsustain hp hl
  · exact hv.write_signal _ (hN.sub_mem _ _) hp hl
  · exact hv
  · exact hv.write_signal _ hN.zero_mem hN.zero_mem hl
  · exact hv.write_signal _ (hN.sub_mem _ _) hp hl
  · exact hv

/-- R136: both phases come out of `mod1`. -/
theorem renderVoice_representable (hv : v.Representable N) (early : Bool) (fs : V) :
    (renderVoice N early fs v).2.Representable N := by
  have he := envStep_representable hN hv
  obtain ⟨-, ⟨hamp, -⟩, -⟩ := Voice.representable_iff.1 he
  rcases renderVoice_cases N early fs v with ⟨-, h⟩ | ⟨-, -, -, h⟩ | ⟨-, -, h⟩ <;> rw [h]
  · exact hv
  · exact he
  · exact he.write_signal _ hamp (hN.mod1_mem _) (hN.mod1_mem _)

end VoiceOperations

/-- R194: a launch with a representable rate and reset values writes values only. -/
theorem freshVoice_representable {c : Config} {fs : V} (h : representable c fs = true) :
    (freshVoice c fs).Representable (numOps c.num) := by
  obtain ⟨-, hwheel, hlfo⟩ := (representable_iff c fs).1 h
  have hN := numOps_lawful c.num
  have hconst := hN.const_mem
  simp only [List.mem_cons, List.not_mem_nil, or_false, forall_eq_or_imp, forall_eq] at hconst
  obtain ⟨-, -, -, -, -, hsustain, hrange, -⟩ := hconst
  have hrate := rateOf_mem hN
  exact Voice.representable_iff.2 ⟨hN.zero_mem, ⟨hN.zero_mem, hN.zero_mem, hN.zero_mem⟩,
    hrate _ _, hrate _ _, hrate _ _, hsustain, hwheel, hrange, hlfo⟩

/-! ## States whose values are those of the number system (R8) -/

/-- `Representable` speaks of the pool, `FS`, the parameters and the samples only. -/
theorem State.Representable.congr {s t : State} (h : s.Representable) (hv : t.voices = s.voices)
    (hf : t.fs = s.fs) (hc : t.cfg = s.cfg) (hy : t.samples = s.samples) : t.Representable where
  voices i := by rw [hv, State.num, hc]; exact h.voices i
  launch := by rw [hc, hf]; exact h.launch
  samples := by rw [hy, State.num, hc]; exact h.samples

section Instruction
variable {i : Instr} {s t : State} (h : exec i s = .next t) (hs : s.Representable)
include h hs

/-- The cases are the ways in which an instruction can write a voice (`exec_voice`). -/
theorem exec_voices_representable (j : VoiceIx) : (t.voices.get j).Representable s.num := by
  have hN := s.num_lawful
  have hv := hs.voices j
  obtain ⟨-, -, ha, hd, hr, hl, hw, hm, hf⟩ := Voice.representable_iff.1 hv
  rcases exec_voice i s t h j with e | ⟨n, f, -, -, e⟩ | ⟨n, -, -, e⟩ | ⟨x, -, e⟩ | ⟨x, -, e⟩ | ⟨x, -, e⟩ |
    ⟨x, -, -, e⟩ | ⟨x, -, -, e⟩ | ⟨x, -, -, e⟩ | ⟨x, -, -, e⟩ | ⟨-, e⟩ | ⟨fs, -, -, hfs, e⟩ <;> rw [e]
  · exact hv
  · exact voiceNoteOn_representable hv n (hN.ofWire_mem f)
  · exact voiceNoteOff_representable hv
  · exact hv.write_settings (by simp [*, hN.div_mem])
  · exact hv.write_settings (by simp [*, hN.ofWire_mem])
  · exact hv.write_settings (by simp [*, hN.ofWire_mem])
  · exact hv.write_settings (by simp [*, rateOf_mem hN])
  · exact hv.write_settings (by simp [*, rateOf_mem hN])
  · exact hv.write_settings (by simp [*, maxV_mem hN.zero_mem (minV_mem (hN.ofWire_mem x) hN.one_mem)])
  · exact hv.write_settings (by simp [*, rateOf_mem hN])
  · exact renderVoice_representable hN hv _ _
  · exact freshVoice_representable hfs

/-- Only `RESET` writes `FS`, and it refuses a rate that is no value (R241). -/
theorem exec_launch_representable : representable s.cfg t.fs = true := by
  obtain ⟨-, -, -, -, hcase⟩ := exec_fields i s t h
  rcases hcase with ⟨fs, -, -, hfs, e, -⟩ | ⟨-, e, -⟩ | ⟨-, e⟩ | ⟨⟨w, e⟩, -⟩ | e <;> rw [e]
  · exact hfs
  all_goals exact hs.launch

/-- Only `TICK` delivers a sample, and that is a product (R190). -/
theorem exec_samples_mem : ∀ y ∈ t.samples, s.num.mem y = true := by
  obtain ⟨-, -, -, -, hcase⟩ := exec_fields i s t h
  rcases hcase with ⟨fs, -, -, -, -, -, -, -, e⟩ | ⟨-, -, -, -, -, e⟩ | ⟨-, e⟩ | ⟨⟨w, e⟩, -⟩ | e <;> rw [e]
  · exact hs.samples
  · exact List.forall_mem_cons.2 ⟨s.num_lawful.mul_mem _ _, hs.samples⟩
  all_goals exact hs.samples

theorem exec_representable : t.Representable := by
  obtain ⟨hc, -⟩ := exec_fields i s t h
  have hn : t.num = s.num := congrArg (fun c : Config => numOps c.num) hc
  exact {
    voices := fun j => hn ▸ exec_voices_representable h hs j
    launch := hc ▸ exec_launch_representable h hs
    samples := hn ▸ exec_samples_mem h hs }

end Instruction

/-- Settles O57: by the cases of `step_cases`, a step that runs no instruction writes none of the values, and an
instruction runs in a state that differs in none of them. -/
theorem registersStayRepresentable : Obligations.RegistersStayRepresentable := by
  intro s t hs h
  rcases step_cases s t h with ⟨-, -, e⟩ | ⟨-, -, e⟩ | ⟨w, q, -, -, e⟩ | ⟨rest, -, -, e⟩ | ⟨p, w, rest, -, -, e⟩ |
    ⟨p, m, err, rest, -, -, -, e⟩ | ⟨p, m, i, rest, -, -, -, e⟩ | ⟨rq, rest, -, -, e⟩ | ⟨fs, rest, -, -, e⟩
  · exact e ▸ hs
  · exact e ▸ hs.congr rfl rfl rfl rfl
  · exact exec_representable e (hs.congr rfl rfl rfl rfl)
  · exact e ▸ hs.congr rfl rfl rfl rfl
  · exact e ▸ hs.congr rfl rfl rfl rfl
  · exact e ▸ hs.congr rfl rfl rfl rfl
  · exact exec_representable e (hs.congr rfl rfl rfl rfl)
  · exact exec_representable e (hs.congr rfl rfl rfl rfl)
  · exact exec_representable e (hs.congr rfl rfl rfl rfl)

/-! ## What a step runs (R14) -/

section Step
variable {s : State} {rest : List Input}

theorem step_request {rq : BitVec 1} (hd : s.draining = false) (h : s.pending = .request rq :: rest) :
    step s = exec (decodeRQ rq) (s.setInputs rest) := by
  simp [step, fetch, h, fetchRequest, hd]

theorem step_reset {fs : V} (hd : s.draining = false) (h : s.pending = .reset fs :: rest) :
    step s = exec (.reset fs) (s.setInputs rest) := by
  simp [step, fetch, h, fetchRequest, hd]

theorem step_midi {p : Nat} {m : MidiMsg} {i : Instr} (hp : p < s.cfg.nProd) (h : s.pending = .midi p m :: rest)
    (hm : decodeMidi m = .ok i) : step s = exec i ((s.setInputs rest).setProducer p) := by
  simp [step, fetch, h, fetchProducer, fetchMidi, hp, hm]

end Step

/-- Settles O9: one lemma for each kind of action at the head of the schedule. -/
theorem stepRunsDecodedInstruction : Obligations.StepRunsDecodedInstruction := fun s =>
  ⟨fun w q => step_pop s w q, fun _ _ => step_request, fun _ _ => step_reset, fun _ _ _ _ => step_midi⟩

/-! ## The profile `EXACT` (R9 to R12) -/

/-- Settles O22: (S1) is `sinq_range`, and at the points of (S2) no free value is looked at. -/
theorem sineIsBoundedAndPinned : Obligations.SineIsBoundedAndPinned := by
  refine ⟨sinq_range, ?_, ?_, ?_, ?_, ?_, ?_, ?_, ?_⟩ <;> norm_num [sinq]

/-- Settles O23: `mod1` is the fractional part of `x`, and `k` its floor. -/
theorem modOneIsFloorModulus : Obligations.ModOneIsFloorModulus := by
  intro x
  refine ⟨⟨⌊x⌋, ?_, fun m => Int.le_floor.symm⟩, mod1_nonneg x, mod1_lt_one x⟩
  rw [mod1_eq_fract, Int.fract_add_floor]

theorem State.num_of_exact {s : State} (h : s.cfg.num = .exact) : s.num = NumOps.exact := by
  rw [State.num, h, numOps_exact]

/-- Settles O56: the machine's number system is then `NumOps.exact`, of which each clause is known. -/
theorem exactProfileIsRationalArithmetic : Obligations.ExactProfileIsRationalArithmetic := by
  intro s hs
  rw [State.num_of_exact hs]
  have hmod (x : V) : NumOps.exact.mod1 x = x - (⌊x⌋ : V) := rfl
  exact ⟨fun x y => ⟨rfl, rfl, rfl, rfl, rfl, hmod x, rfl, rfl⟩, NumOps.exact_ofInt, rfl, rfl, rfl, rfl, rfl, rfl,
    rfl, rfl, NumOps.exact_lawful, NumOps.exact_keepsSigns, NumOps.exact_positiveRates⟩

/-! ## Every number system of the machine (R8) -/

/-- `max` of N1 is the maximum of a total order. -/
theorem maxV_spec (a b : V) : (a ≤ b ∨ b ≤ a) ∧ a ≤ maxV a b ∧ b ≤ maxV a b ∧ (maxV a b = a ∨ maxV a b = b) := by
  rw [maxV_eq_max]
  exact ⟨le_total a b, le_max_left a b, le_max_right a b, max_choice a b⟩

/-- Settles O55: the laws hold of whatever `toLawful` answers, and it changes no system that keeps them. -/
theorem numberSystemsSatisfyLaws : Obligations.NumberSystemsSatisfyLaws :=
  ⟨numOps_lawful, fun _ => NumOps.toLawful_of_lawful, maxV_spec⟩

end Sys2Proof.Machine

/-! PROOFS. The family of spec/10_state.md: the ranges and the invariant of the registers (R37 to R39, R42), the range
contract (R270), who writes which register (R22 to R35, R44), and the reset values (R45). -/

namespace Sys2Proof.Machine

/-! ## The channel's contents (R42, R61) -/

theorem chanFits_iff (cap : Option Nat) (q : List CmdWord) :
    chanFits cap q = true ↔ ∀ n, cap = some n → q.length ≤ n := by
  cases cap <;> simp [chanFits]

theorem chanFits_nil (cap : Option Nat) : chanFits cap [] = true := by simp [chanFits_iff]

/-- A pop leaves a channel that fits. -/
theorem chanFits_of_cons {cap : Option Nat} {w : CmdWord} {q : List CmdWord} (h : chanFits cap (w :: q) = true) :
    chanFits cap q = true := by
  rw [chanFits_iff] at h ⊢
  exact fun n hn => (Nat.le_succ _).trans (h n hn)

/-- A push appends only where there is room. -/
theorem chanFits_chPush {cap : Option Nat} {q : List CmdWord} (w : CmdWord) (h : chanFits cap q = true) :
    chanFits cap (chPush cap q w).2 = true := by
  rcases chPush_eq cap q w with ⟨e, hroom⟩ | ⟨e, -⟩ <;> rw [e]
  · rw [hasRoom_iff] at hroom
    exact (chanFits_iff _ _).2 fun n hn => by simpa using hroom n hn
  · exact h

theorem chPush_snd (cap : Option Nat) (q : List CmdWord) (w : CmdWord) :
    (chPush cap q w).2 = q ∨ (chPush cap q w).2 = q ++ [w] := by
  rcases chPush_eq cap q w with ⟨e, -⟩ | ⟨e, -⟩ <;> simp [e]

/-! ## The broadcast registers of a voice (R39) -/

section Settings
variable {u v : Voice}

theorem Voice.settings_eq_iff : u.settings = v.settings ↔
    u.attackRate = v.attackRate ∧ u.decayRate = v.decayRate ∧ u.releaseRate = v.releaseRate ∧
      u.sustain = v.sustain ∧ u.modWheel = v.modWheel ∧ u.modRange = v.modRange ∧ u.lfoFreq = v.lfoFreq := by
  simp [Voice.settings]

/-- No broadcast register is written by a rendered sample (R190 side effects). -/
theorem renderVoice_settings (N : NumOps) (early : Bool) (fs : V) (v : Voice) :
    (renderVoice N early fs v).2.settings = v.settings := by
  rw [renderVoice_frame]; rfl

theorem Voice.SettingsOk.congr (hv : v.SettingsOk) (h : u.settings = v.settings) : u.SettingsOk := by
  obtain ⟨ha, hd, hr, hs, hw, -, -⟩ := Voice.settings_eq_iff.1 h
  simpa only [Voice.SettingsOk, ha, hd, hr, hs, hw] using hv

theorem Voice.RatesPositive.congr (hv : v.RatesPositive) (h : u.settings = v.settings) : u.RatesPositive := by
  obtain ⟨ha, hd, hr, -⟩ := Voice.settings_eq_iff.1 h
  simpa only [Voice.RatesPositive, ha, hd, hr] using hv

theorem Voice.InContract.congr (hv : v.InContract) (h : u.settings = v.settings) : u.InContract := by
  obtain ⟨-, -, -, -, -, hm, hl⟩ := Voice.settings_eq_iff.1 h
  simpa only [Voice.InContract, hm, hl] using hv

/-- A broadcast whose new registers are the same for voices that agree keeps them in agreement. -/
theorem Pool.Uniform.map {p : Pool} (hp : p.Uniform) {f : Voice → Voice}
    (hf : ∀ u v : Voice, u.settings = v.settings → (f u).settings = (f v).settings) : (p.map f).Uniform := by
  intro i j
  rw [Pool.get_map, Pool.get_map]
  exact hf _ _ (hp i j)

/-- Writing one voice without touching its broadcast registers keeps them in agreement. -/
theorem Pool.Uniform.set {p : Pool} (hp : p.Uniform) {k : VoiceIx} {v : Voice}
    (hv : v.settings = (p.get k).settings) : (p.set k v).Uniform := by
  have hget (i : VoiceIx) : ((p.set k v).get i).settings = (p.get i).settings := by
    rw [Pool.get_set]
    split
    · next h => rw [hv, h]
    · rfl
  intro i j
  rw [hget, hget]
  exact hp i j

end Settings

/-! ## The ranges of one voice (R37, R38, R137) -/

section VoiceRanges
variable {N : NumOps} {v : Voice}

/-- R137: the envelope step keeps `amp` in `[0, 1]`, by the bound each arm stops at. -/
theorem envStep_inRange (hN : N.KeepsSigns) (hrep : v.Representable N) (hv : v.InRange)
    (hs : 0 ≤ v.sustain ∧ v.sustain ≤ 1) (hrates : 0 ≤ v.attackRate ∧ 0 ≤ v.decayRate ∧ 0 ≤ v.releaseRate) :
    (envStep N v).InRange := by
  obtain ⟨-, ⟨mamp, -, -⟩, mattack, mdecay, mrelease, -⟩ := Voice.representable_iff.1 hrep
  obtain ⟨hamp0, hamp1, hphase0, hphase1, hlfo⟩ := hv
  obtain ⟨hattack, hdecay, hrelease⟩ := hrates
  rcases envStep_cases N v with
    ⟨-, -, e⟩ | ⟨-, h, e⟩ | ⟨-, -, e⟩ | ⟨-, h, e⟩ | ⟨-, e⟩ | ⟨-, -, e⟩ | ⟨-, h, e⟩ | ⟨-, e⟩ <;> rw [e]
  · exact ⟨zero_le_one, le_rfl, hphase0, hphase1, hlfo⟩
  · exact ⟨hN.add_nonneg _ _ mamp mattack hamp0 hattack, h.le, hphase0, hphase1, hlfo⟩
  · exact ⟨hs.1, hs.2, hphase0, hphase1, hlfo⟩
  · exact ⟨hs.1.trans h.le, (hN.sub_le _ _ mamp mdecay hamp0 hdecay).trans hamp1, hphase0, hphase1, hlfo⟩
  · exact ⟨hamp0, hamp1, hphase0, hphase1, hlfo⟩
  · exact ⟨le_rfl, zero_le_one, le_rfl, zero_lt_one, hlfo⟩
  · exact ⟨h.le, (hN.sub_le _ _ mamp mrelease hamp0 hrelease).trans hamp1, hphase0, hphase1, hlfo⟩
  · exact ⟨hamp0, hamp1, hphase0, hphase1, hlfo⟩

/-- R38: the one arm that reaches `Off` writes `amp = 0`. -/
theorem envStep_offSilent (hv : v.OffSilent) : (envStep N v).OffSilent := by
  unfold Voice.OffSilent
  rcases envStep_cases N v with
    ⟨-, -, e⟩ | ⟨hst, -, e⟩ | ⟨-, -, e⟩ | ⟨hst, -, e⟩ | ⟨-, e⟩ | ⟨-, -, e⟩ | ⟨hst, -, e⟩ | ⟨-, e⟩ <;> rw [e]
  · simp
  · simp [hst]
  · simp
  · simp [hst]
  · exact hv
  · simp
  · simp [hst]
  · exact hv

/-- R137: both phases come out of `mod1`. -/
theorem renderVoice_inRange (hL : N.Lawful) (hN : N.KeepsSigns) (hrep : v.Representable N) (hv : v.InRange)
    (hs : 0 ≤ v.sustain ∧ v.sustain ≤ 1) (hrates : 0 ≤ v.attackRate ∧ 0 ≤ v.decayRate ∧ 0 ≤ v.releaseRate)
    (early : Bool) (fs : V) : (renderVoice N early fs v).2.InRange := by
  have he := envStep_inRange hN hrep hv hs hrates
  rcases renderVoice_cases N early fs v with ⟨-, e⟩ | ⟨-, -, -, e⟩ | ⟨-, -, e⟩ <;> rw [e]
  · exact hv
  · exact he
  · obtain ⟨hphase0, hphase1⟩ := hL.mod1_range (N.add (envStep N v).phase (N.div (voiceFreq N (envStep N v)) fs))
    obtain ⟨hlfo0, hlfo1⟩ := hL.mod1_range (N.add (envStep N v).lfoPhase (N.div (envStep N v).lfoFreq fs))
    exact ⟨he.1, he.2.1, hphase0, hphase1, hlfo0, hlfo1⟩

theorem renderVoice_offSilent (hv : v.OffSilent) (early : Bool) (fs : V) :
    (renderVoice N early fs v).2.OffSilent := by
  obtain ⟨hstate, hamp⟩ := renderVoice_state N early fs v
  rw [Voice.OffSilent, hstate, hamp]
  exact envStep_offSilent hv

theorem renderVoice_ok (hL : N.Lawful) (hN : N.KeepsSigns) (hrep : v.Representable N) (hv : v.Ok)
    (early : Bool) (fs : V) : (renderVoice N early fs v).2.Ok := by
  obtain ⟨hrange, ⟨hs0, hs1, ha, hd, hr, hwheel⟩, hoff⟩ := hv
  exact ⟨renderVoice_inRange hL hN hrep hrange ⟨hs0, hs1⟩ ⟨ha, hd, hr⟩ early fs,
    Voice.SettingsOk.congr ⟨hs0, hs1, ha, hd, hr, hwheel⟩ (renderVoice_settings N early fs v),
    renderVoice_offSilent hoff early fs⟩

/-- A sounding voice needs no silence: `state` may become any value but `Off` (R120, R121). -/
theorem Voice.Ok.write_note (hv : v.Ok) (n : BitVec 7) (f : V) {e : EnvState} (he : e ≠ .off) :
    Voice.Ok { v with note := n, base := f, state := e } :=
  ⟨hv.1, hv.2.1, fun h => absurd h he⟩

/-- The broadcast registers may be any values in their ranges (R37 b, c). -/
theorem Voice.Ok.write_settings (hv : v.Ok) {a d r s w m l : V} (h : 0 ≤ s ∧ s ≤ 1 ∧ 0 ≤ a ∧ 0 ≤ d ∧ 0 ≤ r ∧
    0 ≤ w ∧ w ≤ 1) :
    Voice.Ok { v with
      attackRate := a, decayRate := d, releaseRate := r, sustain := s, modWheel := w, modRange := m, lfoFreq := l } :=
  ⟨hv.1, h, hv.2.2⟩

end VoiceRanges

theorem Config.wellFormed_iff (c : Config) : c.wellFormed = true ↔
    c.chCap ≠ some 0 ∧ 1 ≤ c.nProd ∧ 0 ≤ c.modWheelReset ∧ c.modWheelReset ≤ 1 ∧ 0 < c.lfoFreqReset := by
  simp [Config.wellFormed, and_assoc]

/-- The two constants that `RESET` makes rates of are values of the number system. -/
theorem resetTimes_mem {N : NumOps} (hN : N.Lawful) : N.mem N.tenth = true ∧ N.mem N.releaseReset = true :=
  ⟨hN.const_mem _ (by simp), hN.const_mem _ (by simp)⟩

section FreshVoice
variable {c : Config} {fs : V} (hfs : 0 < fs) (hmem : representable c fs = true)
include hfs hmem

/-- R45: the voice that `RESET` writes is silent and in its ranges. -/
theorem freshVoice_ok (hN : (numOps c.num).NonnegRates) (hc : c.wellFormed = true) : (freshVoice c fs).Ok := by
  obtain ⟨-, -, hwheel0, hwheel1, -⟩ := (Config.wellFormed_iff c).1 hc
  obtain ⟨hm, -⟩ := (representable_iff c fs).1 hmem
  obtain ⟨hs0, hs1⟩ := hN.sustainReset_range
  obtain ⟨htenth, hthird⟩ := resetTimes_mem (numOps_lawful c.num)
  have hrate := hN.rate_nonneg _ fs htenth hm hfs
  exact ⟨⟨le_rfl, zero_le_one, le_rfl, zero_lt_one, le_rfl, zero_lt_one⟩,
    ⟨hs0, hs1, hrate, hrate, hN.rate_nonneg _ fs hthird hm hfs, hwheel0, hwheel1⟩, fun _ => rfl⟩

theorem freshVoice_ratesPositive (hN : (numOps c.num).PositiveRates) : (freshVoice c fs).RatesPositive := by
  obtain ⟨hm, -⟩ := (representable_iff c fs).1 hmem
  obtain ⟨htenth, hthird⟩ := resetTimes_mem (numOps_lawful c.num)
  have hrate := hN.rate_pos _ fs htenth hm hfs
  exact ⟨hrate, hrate, hN.rate_pos _ fs hthird hm hfs⟩

end FreshVoice

/-! ## What an instruction keeps -/

/-- A launch that is not refused writes every register (R194). -/
theorem exec_reset {fs : V} {s : State} (hfs : 0 < fs) (hmem : representable s.cfg fs = true) :
    exec (.reset fs) s =
      .next ((((s.setFs fs).broadcast fun _ => freshVoice s.cfg fs).setChan []).setDraining false) := by
  simp [exec, execReset, not_le.2 hfs, hmem]

theorem eq_of_exec_reset {fs : V} {s t : State} (h : exec (.reset fs) s = .next t) :
    t = (((s.setFs fs).broadcast fun _ => freshVoice s.cfg fs).setChan []).setDraining false := by
  simp only [exec, execReset] at h
  split at h
  · cases h
  split at h
  · cases h; rfl
  · cases h

section Instruction
variable {i : Instr} {s t : State} (h : exec i s = .next t)
include h

theorem exec_cfg : t.cfg = s.cfg := (exec_fields i s t h).1

theorem exec_num : t.num = s.num := congrArg (fun c : Config => numOps c.num) (exec_cfg h)

/-- Only `RESET` writes `FS`, a positive rate (R35). -/
theorem exec_fs_pos (hs : 0 < s.fs) : 0 < t.fs := by
  obtain ⟨-, -, -, -, hcase⟩ := exec_fields i s t h
  rcases hcase with ⟨fs, -, hfs, -, e, -⟩ | ⟨-, e, -⟩ | ⟨-, e⟩ | ⟨⟨w, e⟩, -⟩ | e <;> rw [e]
  · exact hfs
  all_goals exact hs

theorem exec_chanFits (hs : chanFits s.cfg.chCap s.chan = true) : chanFits s.cfg.chCap t.chan = true := by
  obtain ⟨-, -, -, -, hcase⟩ := exec_fields i s t h
  rcases hcase with ⟨fs, -, -, -, -, e, -⟩ | ⟨-, -, e, -⟩ | ⟨-, e⟩ | ⟨⟨w, e⟩, -⟩ | e <;> rw [e]
  · exact chanFits_nil _
  · exact hs
  · exact hs
  · exact chanFits_chPush w hs
  · exact hs

/-- R39: a broadcast gives every voice the same, and no other instruction writes a broadcast register. -/
theorem exec_uniform (hs : s.voices.Uniform) : t.voices.Uniform := by
  have hwired {f : Voice → Voice} (hf : ∀ u v : Voice, u.settings = v.settings → (f u).settings = (f v).settings) :
      (wiredBroadcast s f).voices.Uniform := by
    unfold wiredBroadcast
    split
    · exact hs.map hf
    · exact hs
  cases i with
  | nop | drain | midiNoteOff | midiNoteOn | midiCc => cases h; exact hs
  | noteOn n f =>
    cases h
    split
    · exact hs.set rfl
    · exact hs
  | noteOff n =>
    cases h
    split
    · exact hs.set rfl
    · exact hs
  | paramAttack x | paramDecay x | paramSustain x | paramRelease x =>
    cases h
    exact hwired fun u v e => by
      simp_all [Voice.settings_eq_iff, voiceSetAttack, voiceSetDecay, voiceSetSustain, voiceSetRelease]
  | paramModRange x | paramLfoFreq x =>
    cases h
    exact hs.map fun u v e => by simp_all [Voice.settings_eq_iff]
  | controlChange c x =>
    cases h
    split
    · exact hs.map fun u v e => by simp_all [Voice.settings_eq_iff]
    · exact hs
  | tick =>
    cases h
    exact hs.map fun u v e => by rw [renderVoice_settings, renderVoice_settings, e]
  | reset fs =>
    rw [eq_of_exec_reset h]
    exact hs.map fun _ _ _ => rfl

/-- R37 (a) to (c), R38: the cases are the ways in which an instruction can write a voice (`exec_voice`). -/
theorem exec_voices_ok (hsigns : s.num.KeepsSigns) (hrates : s.num.NonnegRates) (hrep : s.Representable)
    (hs : s.Ranges) (j : VoiceIx) : (t.voices.get j).Ok := by
  obtain ⟨hfs, hcfg, hlaunch, hok, -, -⟩ := hs
  have hL := s.num_lawful
  have hv := hok j
  obtain ⟨-, ⟨hs0, hs1, ha, hd, hr, hw0, hw1⟩, -⟩ := hok j
  have hrate (x : V) : 0 ≤ rateOf s.num (s.num.ofWire x) s.fs :=
    hrates.rate_nonneg _ _ (hL.ofWire_mem x) ((representable_iff _ _).1 hlaunch).1 hfs
  rcases exec_voice i s t h j with e | ⟨n, f, -, -, e⟩ | ⟨n, -, -, e⟩ | ⟨x, -, e⟩ | ⟨x, -, e⟩ | ⟨x, -, e⟩ |
    ⟨x, -, -, e⟩ | ⟨x, -, -, e⟩ | ⟨x, -, -, e⟩ | ⟨x, -, -, e⟩ | ⟨-, e⟩ | ⟨fs, -, hfs', hmem, e⟩ <;> rw [e]
  · exact hv
  · exact hv.write_note n _ (by decide)
  · exact hv.write_note _ _ (by decide)
  · obtain ⟨hx0, hx1⟩ := wheelDepth_eq hL x ▸ hL.wheel_range x
    exact hv.write_settings ⟨hs0, hs1, ha, hd, hr, hx0, hx1⟩
  · exact hv.write_settings ⟨hs0, hs1, ha, hd, hr, hw0, hw1⟩
  · exact hv.write_settings ⟨hs0, hs1, ha, hd, hr, hw0, hw1⟩
  · exact hv.write_settings ⟨hs0, hs1, hrate x, hd, hr, hw0, hw1⟩
  · exact hv.write_settings ⟨hs0, hs1, ha, hrate x, hr, hw0, hw1⟩
  · obtain ⟨hx0, hx1⟩ := clamp01 (s.num.ofWire x)
    exact hv.write_settings ⟨hx0, hx1, ha, hd, hr, hw0, hw1⟩
  · exact hv.write_settings ⟨hs0, hs1, ha, hd, hrate x, hw0, hw1⟩
  · exact renderVoice_ok hL hsigns (hrep.voices j) hv _ _
  · exact freshVoice_ok hfs' hmem hrates hcfg

/-- R28, R37 (b) with "rates `> 0`". -/
theorem exec_ratesPositive (hrates : s.num.PositiveRates) (hs : s.Inv) (j : VoiceIx) :
    (t.voices.get j).RatesPositive := by
  obtain ⟨⟨hfs, -, hlaunch, -⟩, hpos⟩ := hs
  have hv := hpos j
  obtain ⟨ha, hd, hr⟩ := hpos j
  have hrate (x : V) : 0 < rateOf s.num (s.num.ofWire x) s.fs :=
    hrates.rate_pos _ _ (s.num_lawful.ofWire_mem x) ((representable_iff _ _).1 hlaunch).1 hfs
  rcases exec_voice i s t h j with e | ⟨n, f, -, -, e⟩ | ⟨n, -, -, e⟩ | ⟨x, -, e⟩ | ⟨x, -, e⟩ | ⟨x, -, e⟩ |
    ⟨x, -, -, e⟩ | ⟨x, -, -, e⟩ | ⟨x, -, -, e⟩ | ⟨x, -, -, e⟩ | ⟨-, e⟩ | ⟨fs, -, hfs', hmem, e⟩ <;> rw [e]
  · exact hv
  · exact hv
  · exact hv
  · exact hv
  · exact hv
  · exact hv
  · exact ⟨hrate x, hd, hr⟩
  · exact ⟨ha, hrate x, hr⟩
  · exact hv
  · exact ⟨ha, hd, hrate x⟩
  · exact Voice.RatesPositive.congr hv (renderVoice_settings _ _ _ _)
  · exact freshVoice_ratesPositive hfs' hmem hrates

theorem exec_ranges (hsigns : s.num.KeepsSigns) (hrates : s.num.NonnegRates) (hrep : s.Representable)
    (hs : s.Ranges) : t.Ranges := by
  have hok := exec_voices_ok h hsigns hrates hrep hs
  obtain ⟨hfs, hcfg, -, -, hunif, hfits⟩ := hs
  rw [State.Ranges, exec_cfg h]
  exact ⟨exec_fs_pos h hfs, hcfg, exec_launch_representable h hrep, hok, exec_uniform h hunif, exec_chanFits h hfits⟩

end Instruction

/-! ## What the fetch keeps -/

/-- What the fetch may change before an instruction runs: the schedule and the agents' records, and the channel by one
pop or one push (R61, R62). -/
structure FetchMove (s u : State) : Prop where
  voices : u.voices = s.voices
  fs : u.fs = s.fs
  cfg : u.cfg = s.cfg
  samples : u.samples = s.samples
  chan : u.chan = s.chan ∨ (∃ w, s.chan = w :: u.chan) ∨ ∃ w, u.chan = (chPush s.cfg.chCap s.chan w).2

/-- A step is a fetch, and then an instruction unless the fetch was all of it. -/
theorem step_fetchMove {s t : State} (h : step s = .next t) :
    ∃ u, FetchMove s u ∧ (u = t ∨ ∃ i, exec i u = .next t) := by
  rcases step_cases s t h with ⟨-, -, e⟩ | ⟨-, -, e⟩ | ⟨w, q, -, hq, e⟩ | ⟨rest, -, -, e⟩ | ⟨p, w, rest, -, -, e⟩ |
    ⟨p, m, err, rest, -, -, -, e⟩ | ⟨p, m, i, rest, -, -, -, e⟩ | ⟨rq, rest, -, -, e⟩ | ⟨fs, rest, -, -, e⟩
  · exact ⟨t, e ▸ ⟨rfl, rfl, rfl, rfl, .inl rfl⟩, .inl rfl⟩
  · exact ⟨t, e ▸ ⟨rfl, rfl, rfl, rfl, .inl rfl⟩, .inl rfl⟩
  · refine ⟨_, ?_, .inr ⟨_, e⟩⟩
    exact ⟨rfl, rfl, rfl, rfl, .inr (.inl ⟨w, hq⟩)⟩
  · exact ⟨t, e ▸ ⟨rfl, rfl, rfl, rfl, .inl rfl⟩, .inl rfl⟩
  · exact ⟨t, e ▸ ⟨rfl, rfl, rfl, rfl, .inr (.inr ⟨w, rfl⟩)⟩, .inl rfl⟩
  · exact ⟨t, e ▸ ⟨rfl, rfl, rfl, rfl, .inl rfl⟩, .inl rfl⟩
  all_goals
    refine ⟨_, ?_, .inr ⟨_, e⟩⟩
    exact ⟨rfl, rfl, rfl, rfl, .inl rfl⟩

section Move
variable {s u : State} (hm : FetchMove s u)
include hm

theorem FetchMove.num : u.num = s.num := congrArg (fun c : Config => numOps c.num) hm.cfg

theorem FetchMove.representable (hs : s.Representable) : u.Representable :=
  hs.congr hm.voices hm.fs hm.cfg hm.samples

theorem FetchMove.chanFits (hs : chanFits s.cfg.chCap s.chan = true) : chanFits s.cfg.chCap u.chan = true := by
  rcases hm.chan with e | ⟨w, e⟩ | ⟨w, e⟩
  · rwa [e]
  · exact chanFits_of_cons (e ▸ hs)
  · exact e ▸ chanFits_chPush w hs

theorem FetchMove.ranges (hs : s.Ranges) : u.Ranges := by
  obtain ⟨hfs, hcfg, hlaunch, hok, hunif, hfits⟩ := hs
  rw [State.Ranges, hm.voices, hm.fs, hm.cfg]
  exact ⟨hfs, hcfg, hlaunch, hok, hunif, hm.chanFits hfits⟩

theorem FetchMove.inv (hs : s.Inv) : u.Inv := ⟨hm.ranges hs.1, hm.voices ▸ hs.2⟩

end Move

/-- Settles O58: the fetch keeps the ranges, and the instruction it finds does (`exec_ranges`). -/
theorem stepKeepsRanges : Obligations.StepKeepsRanges := by
  intro s t hsigns hrates hrep hs h
  obtain ⟨u, hm, rfl | ⟨i, e⟩⟩ := step_fetchMove h
  · exact hm.ranges hs
  · rw [← hm.num] at hsigns hrates
    exact exec_ranges e hsigns hrates (hm.representable hrep) (hm.ranges hs)

/-- Settles O47: the ranges are `stepKeepsRanges`, and no rate that is written rounds to 0. -/
theorem stepKeepsInvariant : Obligations.StepKeepsInvariant := by
  intro s t hsigns hrates hrep hs h
  refine ⟨stepKeepsRanges s t hsigns hrates.nonneg hrep hs.1 h, ?_⟩
  obtain ⟨u, hm, rfl | ⟨i, e⟩⟩ := step_fetchMove h
  · exact (hm.inv hs).2
  · exact exec_ratesPositive e (hm.num ▸ hrates) (hm.inv hs)

/-! ## The reset (R45, R194) -/

/-- R45's table, with the rates as R122 computes them. -/
theorem freshVoice_eq (c : Config) (fs : V) {N : NumOps} (hN : N = numOps c.num) : freshVoice c fs =
    { state := .off, amp := 0
      attackRate := N.div 1 (N.mul (max N.tenth N.minTime) fs)
      decayRate := N.div 1 (N.mul (max N.tenth N.minTime) fs)
      releaseRate := N.div 1 (N.mul (max N.releaseReset N.minTime) fs)
      sustain := N.sustainReset, modRange := 20
      lfoFreq := c.lfoFreqReset, modWheel := c.modWheelReset
      phase := 0, lfoPhase := 0, note := 0, base := 0 } := by
  subst hN
  simp only [freshVoice, rateOf, maxV_eq_max, (numOps_lawful c.num).modRangeReset_eq]

/-- In `EXACT` the reset times are above `MIN_TIME`, so the rates are plain quotients. -/
theorem freshVoice_exact {c : Config} (fs : V) (hc : c.num = .exact) :
    (freshVoice c fs).attackRate = 10 / fs ∧ (freshVoice c fs).decayRate = 10 / fs ∧
      (freshVoice c fs).releaseRate = 10 / (3 * fs) ∧ (freshVoice c fs).sustain = 7 / 10 := by
  have htenth : (1 : V) / (max (1 / 10) (1 / 1000) * fs) = 10 / fs := by
    rw [max_eq_left (by norm_num)]; ring
  have hthird : (1 : V) / (max (3 / 10) (1 / 1000) * fs) = 10 / (3 * fs) := by
    rw [max_eq_left (by norm_num)]; ring
  rw [freshVoice_eq c fs rfl, hc]
  exact ⟨htenth, htenth, hthird, rfl⟩

/-- Settles O34: an admitted launch writes `freshVoice` into every slot (`freshVoice_eq`). -/
theorem resetWritesEveryRegister : Obligations.ResetWritesEveryRegister := by
  intro fs s N hN hfs hmem hwheel hlfo
  subst hN
  have hvoice (i : VoiceIx) : (s.voices.map fun _ => freshVoice s.cfg fs).get i = freshVoice s.cfg fs :=
    Pool.get_map _ s.voices i
  refine ⟨_, exec_reset hfs ((representable_iff _ _).2 ⟨hmem, hwheel, hlfo⟩), rfl, fun i => ?_, fun hexact i => ?_⟩
  · exact (hvoice i).trans (freshVoice_eq s.cfg fs rfl)
  · exact (hvoice i).symm ▸ freshVoice_exact fs hexact

/-- Settles O35: the launch is `exec_reset`; that it answers `State.reset`, and the rest, is one closed evaluation
each. -/
theorem resetStateIsResetAndSafe : Obligations.ResetStateIsResetAndSafe := by
  have hfresh : (((State.reset.setFs 44100).broadcast fun _ => freshVoice .default 44100).setChan []).setDraining
      false = State.reset := by decide +kernel
  exact ⟨(exec_reset (by norm_num) rfl).trans (congrArg _ hfresh), rfl, by decide +kernel, by decide +kernel,
    ⟨fun _ _ _ => rfl, rfl, fun _ _ => rfl⟩⟩

/-! ## Silence (R45) -/

theorem renderVoice_off (N : NumOps) (early : Bool) (fs : V) {v : Voice} (hv : v.state = .off) :
    renderVoice N early fs v = (0, v) := by
  simp [renderVoice, hv]

/-- R190: silent voices mix to exactly 0, by N2. -/
theorem mix_zeros {N : NumOps} (hN : N.Lawful) {outs : List V} (h : ∀ y ∈ outs, y = 0) : mix N outs = 0 := by
  have hfold : outs.foldl N.add 0 = 0 := by
    induction outs with
    | nil => rfl
    | cons y ys ih =>
      obtain ⟨rfl, hys⟩ := List.forall_mem_cons.1 h
      rw [List.foldl_cons, hN.add_zero 0 hN.zero_mem]
      exact ih hys
  rw [mix, hfold, hN.zero_mul]

section AllOff
variable {s : State} (hs : ∀ i, (s.voices.get i).state = .off)
include hs

theorem exec_tick_allOff : exec .tick s = .next { s with samples := 0 :: s.samples } := by
  have hpool : (s.voices.map fun v => (renderVoice s.num s.cfg.offEarlyExit s.fs v).2) = s.voices :=
    Pool.ext_get fun i => by rw [Pool.get_map, renderVoice_off _ _ _ (hs i)]
  have hmix : mix s.num (voiceOutputs s.num s.cfg.offEarlyExit s.fs s.voices) = 0 := by
    refine mix_zeros s.num_lawful fun y hy => ?_
    rw [voiceOutputs, Pool.toList_eq, List.map_map] at hy
    obtain ⟨i, -, rfl⟩ := List.mem_map.1 hy
    rw [Function.comp_apply, renderVoice_off _ _ _ (hs i)]
  rw [exec, execTick, hpool, hmix]
  rfl

/-- `NOTE_OFF` selects no `Off` voice (R172), a sample leaves `Off` voices alone (R136), and `RESET` writes `Off`. -/
theorem exec_allOff {i : Instr} {t : State} (h : exec i s = .next t) (hi : ∀ n f, i ≠ .noteOn n f) (j : VoiceIx) :
    (t.voices.get j).state = .off := by
  rcases exec_voice i s t h j with e | ⟨n, f, hn, -⟩ | ⟨n, -, hsel, -⟩ | ⟨x, -, e⟩ | ⟨x, -, e⟩ | ⟨x, -, e⟩ |
    ⟨x, -, -, e⟩ | ⟨x, -, -, e⟩ | ⟨x, -, -, e⟩ | ⟨x, -, -, e⟩ | ⟨-, e⟩ | ⟨fs, -, -, -, e⟩
  · rw [e]; exact hs j
  · exact absurd hn (hi n f)
  · exact absurd (hs j) ((selectOff_eq_some _ _ _).1 hsel).1.2
  · rw [e]; exact hs j
  · rw [e]; exact hs j
  · rw [e]; exact hs j
  · rw [e]; exact hs j
  · rw [e]; exact hs j
  · rw [e]; exact hs j
  · rw [e]; exact hs j
  · rw [e, renderVoice_off _ _ _ (hs j)]; exact hs j
  · rw [e]; rfl

end AllOff

/-- Settles O33: silent voices render 0 and stay as they are, and the other instructions keep or write `Off`. -/
theorem silentUntilNoteOn : Obligations.SilentUntilNoteOn := fun _ hs =>
  ⟨exec_tick_allOff hs, fun _ _ h hi => exec_allOff hs h hi⟩

/-! ## The producers (R44) -/

/-- An accepted message pushes the one word of `midi_to_cmd` (R210). -/
theorem exec_of_decodeMidi {m : MidiMsg} {i : Instr} (hm : decodeMidi m = .ok i) :
    ∃ w, midiToCmd m = some w ∧ ∀ s, exec i s = .next (s.pushWord s.producer w) := by
  rcases decodeMidi_cases m i hm with ⟨ch, n, x, rfl⟩ | ⟨ch, n, x, rfl⟩ | ⟨ch, c, x, rfl⟩
  all_goals exact ⟨_, by rw [midiToCmd, hm], fun _ => rfl⟩

/-- An action of a producer that does not exist is refused (R13). -/
theorem lt_nProd_of_step {s t : State} {p : Nat} {f : Fetched} (hf : fetch s = fetchProducer p f s)
    (h : step s = .next t) : p < s.cfg.nProd := by
  by_contra hlt
  rw [step, hf, fetchProducer, if_neg hlt] at h
  cases h

/-- A producer's step takes its action off the schedule, may set the label, and at most pushes one word. -/
theorem step_producer {s t : State} {x : Input} {rest : List Input} (hx : s.pending = x :: rest)
    (hp : x.byProducer = true) (h : step s = .next t) :
    ∃ q, t = (s.setInputs rest).setProducer q ∨ ∃ p w, t = ((s.setInputs rest).setProducer q).pushWord p w := by
  cases x with
  | push p w =>
    have hlt := lt_nProd_of_step (by rw [fetch, hx]) h
    rw [step_push s p w rest hlt hx] at h
    cases h
    exact ⟨s.producer, .inr ⟨p, w, rfl⟩⟩
  | midi p m =>
    have hlt := lt_nProd_of_step (by rw [fetch, hx]) h
    cases hm : decodeMidi m with
    | error e =>
      simp only [step, fetch, hx, fetchProducer, hlt, if_true, fetchMidi, hm] at h
      cases h
      exact ⟨s.producer, .inl rfl⟩
    | ok i =>
      obtain ⟨w, -, hw⟩ := exec_of_decodeMidi hm
      rw [step_midi hlt hx hm, hw] at h
      cases h
      exact ⟨p, .inr ⟨p, w, rfl⟩⟩
  | request | reset | engine => cases hp

/-- Settles O41: by `step_producer` only the schedule, the label, the answer and one word are written. -/
theorem producersTouchOnlyTheChannel : Obligations.ProducersTouchOnlyTheChannel := by
  rintro s t ⟨x, hx, hp⟩ h
  obtain ⟨rest, hx⟩ := List.head?_eq_some_iff.1 hx
  rw [hx]
  obtain ⟨q, rfl | ⟨p, w, rfl⟩⟩ := step_producer hx hp h
  · exact ⟨rfl, rfl, rfl, rfl, rfl, rfl, rfl, .inl rfl⟩
  · exact ⟨rfl, rfl, rfl, rfl, rfl, rfl, rfl, (chPush_snd _ _ _).imp_right fun e => ⟨w, e⟩⟩

/-! ## Who writes which register (R22 to R35) -/

/-- Settles O49: the cases are the ways in which an instruction can write a voice (`exec_voice`). -/
theorem registersHaveOnlyTheirWriters : Obligations.RegistersHaveOnlyTheirWriters := by
  intro i s t j h hreset
  rcases exec_voice i s t h j with e | ⟨n, f, rfl, -, e⟩ | ⟨n, rfl, -, e⟩ | ⟨x, rfl, e⟩ | ⟨x, rfl, e⟩ | ⟨x, rfl, e⟩ |
    ⟨x, rfl, hw, e⟩ | ⟨x, rfl, hw, e⟩ | ⟨x, rfl, hw, e⟩ | ⟨x, rfl, hw, e⟩ | ⟨rfl, e⟩ | ⟨fs, rfl, -⟩
  · simp [e]
  · simp [e, voiceNoteOn]
  · simp [e, voiceNoteOff]
  · simp [e]
  · simp [e]
  · simp [e]
  · simp [e, hw, voiceSetAttack]
  · simp [e, hw, voiceSetDecay]
  · simp [e, hw, voiceSetSustain]
  · simp [e, hw, voiceSetRelease]
  · rw [e, renderVoice_frame]
    simp
  · exact absurd rfl (hreset fs)

/-- Settles O50: the cases are those of `exec_fields`. -/
theorem sampleRateIsWrittenOnlyByReset : Obligations.SampleRateIsWrittenOnlyByReset := by
  intro i s t h
  obtain ⟨hcfg, hinputs, hrepeats, hproducer, hcase⟩ := exec_fields i s t h
  refine and_assoc.1 ⟨?_, hcfg, hinputs, hrepeats, hproducer⟩
  rcases hcase with ⟨fs, hi, -, -, -, -, -, -, e⟩ | ⟨hi, e, -⟩ | ⟨-, e⟩ | ⟨⟨w, e⟩, -⟩ | e
  · exact ⟨fun hne => absurd hi (hne fs), fun _ => e⟩
  · exact ⟨fun _ => e, fun hne => absurd hi hne⟩
  all_goals rw [e]; exact ⟨fun _ => rfl, fun _ => rfl⟩

/-! ## The range contract (R37 d, R270) -/

section Contract
variable {N : NumOps}

/-- The channel after a push holds old words and the new one. -/
theorem chPush_all {P : CmdWord → Bool} {q : List CmdWord} {w : CmdWord} (cap : Option Nat) (hq : q.all P = true)
    (hw : P w = true) : (chPush cap q w).2.all P = true := by
  rcases chPush_snd cap q w with e | e <;> simp [e, hq, hw]

theorem pending_all {P : Input → Bool} {s : State} (hi : s.inputs.all P = true) (hr : s.repeats.all P = true) :
    s.pending.all P = true := by
  unfold State.pending
  split
  · exact hr
  · next e => exact e ▸ hi

theorem afterTurn_all {P : Input → Bool} {s : State} (hi : s.inputs.all P = true) (hr : s.repeats.all P = true) :
    s.afterTurn.all P = true := by
  have hp := pending_all hi hr
  unfold State.afterTurn
  split
  · next rest e =>
    rw [e, List.all_cons, Bool.and_eq_true] at hp
    exact hp.2
  · exact hi

/-- A command that keeps the contract keeps the registers within it. -/
theorem exec_voices_inContract {i : Instr} {s t : State} (h : exec i s = .next t) (hc : s.cfg.wellFormed = true)
    (hi : instrInContract s.num i = true) (hs : ∀ j, (s.voices.get j).InContract) (j : VoiceIx) :
    (t.voices.get j).InContract := by
  have hv := hs j
  obtain ⟨hrange, hlfo⟩ := hs j
  rcases exec_voice i s t h j with e | ⟨n, f, -, -, e⟩ | ⟨n, -, -, e⟩ | ⟨x, -, e⟩ | ⟨x, rfl, e⟩ | ⟨x, rfl, e⟩ |
    ⟨x, -, -, e⟩ | ⟨x, -, -, e⟩ | ⟨x, -, -, e⟩ | ⟨x, -, -, e⟩ | ⟨-, e⟩ | ⟨fs, -, -, -, e⟩ <;> rw [e]
  · exact hv
  · exact hv
  · exact hv
  · exact hv
  · exact ⟨of_decide_eq_true hi, hlfo⟩
  · exact ⟨hrange, of_decide_eq_true hi⟩
  · exact hv
  · exact hv
  · exact hv
  · exact hv
  · exact Voice.InContract.congr hv (renderVoice_settings _ _ _ _)
  · obtain ⟨-, -, -, -, hlfoReset⟩ := (Config.wellFormed_iff _).1 hc
    rw [freshVoice_eq s.cfg fs rfl]
    exact ⟨by norm_num, hlfoReset⟩

/-- The payload of every note is positive (R215). -/
theorem wire_noteFreq_pos (n : BitVec 7) : 0 < wire (noteFreq n) := by
  have hpos : 0 < (noteFreq n).toInt := by revert n; decide +kernel
  exact div_pos (Int.cast_pos.2 hpos) (by norm_num)

/-- No MIDI form sets a modulation parameter, and its note frequencies are positive. -/
theorem midi_inContract (p : Nat) (m : MidiMsg) : (Input.midi p m).inContract .exact = true := by
  change (midiToCmd m).all (wordInContract .exact) = true
  unfold midiToCmd
  split
  · next n vel _ =>
    rw [Option.all_some, wordInContract, midiNoteOnCmd]
    split
    · rw [decodeCW_noteOnWord]
      exact decide_eq_true (wire_noteFreq_pos n)
    · rw [decodeCW_noteOffWord]; rfl
  · rw [Option.all_some, wordInContract, decodeCW_noteOffWord]; rfl
  · rw [Option.all_some, wordInContract, decodeCW_controlChangeWord]; rfl
  · rfl

/-- A push of a word that keeps the contract. -/
theorem pushWord_inContract {s : State} (p : Nat) {w : CmdWord} (hs : s.InContract)
    (hw : wordInContract s.num w = true) : (s.pushWord p w).InContract := by
  obtain ⟨hv, hq, hi, hr⟩ := hs
  exact ⟨hv, chPush_all _ hq hw, hi, hr⟩

/-- An instruction that pushes nothing. -/
theorem exec_inContract {i : Instr} {s t : State} (h : exec i s = .next t) (hc : s.cfg.wellFormed = true)
    (hi : instrInContract s.num i = true) (hs : s.InContract) (ht : t.chan = s.chan ∨ t.chan = []) :
    t.InContract := by
  obtain ⟨hv, hq, hinputs, hrepeats⟩ := hs
  obtain ⟨-, ei, er, -⟩ := exec_fields i s t h
  rw [State.InContract, exec_num h, ei, er]
  refine ⟨exec_voices_inContract h hc hi hv, ?_, hinputs, hrepeats⟩
  rcases ht with e | e <;> rw [e]
  · exact hq
  · rfl

/-- A command word leaves the channel alone (R160). -/
theorem exec_decodeCW_chan {w : CmdWord} {s t : State} (h : exec (decodeCW w) s = .next t) : t.chan = s.chan := by
  obtain ⟨F, hF⟩ := exec_decodeCW w
  rw [hF] at h
  cases h
  rfl

/-- A request only ticks or opens a drain, with no payload and no word written (R98). -/
theorem exec_decodeRQ_chan {rq : BitVec 1} {s t : State} (h : exec (decodeRQ rq) s = .next t) :
    t.chan = s.chan := by
  unfold decodeRQ at h
  split at h <;> cases h <;> rfl

theorem instrInContract_decodeRQ (rq : BitVec 1) : instrInContract N (decodeRQ rq) = true := by
  unfold decodeRQ
  split <;> rfl

end Contract

/-- Settles O48: by the cases of `step_cases`, the action that a step takes off the schedule, the word that it takes off
the channel and the payload that it stores all keep the contract. -/
theorem contractKeepsModulationRanges : Obligations.ContractKeepsModulationRanges := by
  refine ⟨fun s t hc hs h => ?_, midi_inContract⟩
  obtain ⟨hv, hq, hi, hr⟩ := id hs
  have hturn := afterTurn_all hi hr
  have hhead {x : Input} {rest : List Input} (hx : s.pending = x :: rest) :
      x.inContract s.num = true ∧ rest.all (Input.inContract s.num) = true := by
    simpa [hx] using pending_all hi hr
  rcases step_cases s t h with ⟨-, -, rfl⟩ | ⟨-, -, rfl⟩ | ⟨w, q, -, hwq, e⟩ | ⟨rest, -, hx, rfl⟩ |
    ⟨p, w, rest, -, hx, rfl⟩ | ⟨p, m, err, rest, -, hx, -, rfl⟩ | ⟨p, m, i, rest, -, hx, hm, e⟩ |
    ⟨rq, rest, -, hx, e⟩ | ⟨fs, rest, -, hx, e⟩
  · exact hs
  · exact ⟨hv, hq, hturn, hr⟩
  · rw [hwq, List.all_cons, Bool.and_eq_true] at hq
    exact exec_inContract e hc hq.1 ⟨hv, hq.2, hturn, hr⟩ (.inl (exec_decodeCW_chan e))
  · exact ⟨hv, hq, (hhead hx).2, hr⟩
  · exact pushWord_inContract p ⟨hv, hq, (hhead hx).2, hr⟩ (hhead hx).1
  · exact ⟨hv, hq, (hhead hx).2, hr⟩
  · obtain ⟨w, hw, hexec⟩ := exec_of_decodeMidi hm
    obtain ⟨hword, hrest⟩ := hhead hx
    rw [Input.inContract, hw] at hword
    rw [hexec] at e
    cases e
    exact pushWord_inContract p ⟨hv, hq, hrest, hr⟩ hword
  · exact exec_inContract e hc (instrInContract_decodeRQ rq) ⟨hv, hq, (hhead hx).2, hr⟩ (.inl (exec_decodeRQ_chan e))
  · have hempty : t.chan = [] := by rw [eq_of_exec_reset e]; rfl
    exact exec_inContract e hc rfl ⟨hv, hq, (hhead hx).2, hr⟩ (.inr hempty)

end Sys2Proof.Machine

/-! PROOFS. The family of spec/20_memory.md: the event channel (R61, R62, R64), the effect of what is pushed and sent
again (R66, R71), and the bytes of a command word (R69). -/

namespace Sys2Proof

/-! ## The bytes of a command word (R69) -/

/-- The bytes of a word, `OP` first, carry the word: each append joins two neighbouring ranges of bits. -/
theorem cwOfBytes_extractLsb' (w : CmdWord) :
    cwOfBytes (w.extractLsb' 56 8) (w.extractLsb' 48 8) (w.extractLsb' 40 8) (w.extractLsb' 32 8)
      (w.extractLsb' 24 8) (w.extractLsb' 16 8) (w.extractLsb' 8 8) (w.extractLsb' 0 8) = w := by
  unfold cwOfBytes
  iterate 7 rw [BitVec.extractLsb'_append_extractLsb'_eq_extractLsb' (by rfl)]
  exact BitVec.extractLsb'_eq_self

theorem decodeBytes_cwBytes (w : CmdWord) : decodeBytes (cwBytes w) = .ok (decodeCW w) := by
  rw [cwBytes, decodeBytes, cwOfBytes_extractLsb']

/-- Settles O7: the bytes are those of `cwBytes` in its order, and decoding them is `decodeBytes_cwBytes`. -/
theorem commandWordIsBigEndian : Obligations.CommandWordIsBigEndian := fun w => ⟨rfl, decodeBytes_cwBytes w⟩

end Sys2Proof

namespace Sys2Proof.Machine

/-! ## A push (R61) -/

section Push
variable {s : State} (p : Nat) (w : CmdWord)

theorem pushWord_of_hasRoom (h : hasRoom s.cfg.chCap s.chan = true) :
    s.pushWord p w = { s with chan := s.chan ++ [w], results := (p, .ok) :: s.results } := by
  rw [State.pushWord, chPush, if_pos h]
  rfl

theorem pushWord_of_full (h : hasRoom s.cfg.chCap s.chan = false) :
    s.pushWord p w = { s with results := (p, .full) :: s.results } := by
  rw [State.pushWord, chPush, if_neg (by simp [h])]
  rfl

end Push

theorem hasRoom_eq_false_iff (cap : Option Nat) (q : List CmdWord) :
    hasRoom cap q = false ↔ ∃ n, cap = some n ∧ n ≤ q.length := by
  cases cap <;> simp [hasRoom]

/-- Settles O39: the step is the push (`step_push`), and what that does is decided by `hasRoom`. -/
theorem pushAppendsOrAnswersFull : Obligations.PushAppendsOrAnswersFull := by
  intro s p w rest hp hs
  rw [step_push s p w rest hp hs]
  constructor
  · intro hroom
    exact congrArg _ (pushWord_of_hasRoom (s := s.setInputs rest) p w ((hasRoom_iff _ _).2 hroom))
  · intro hfull
    exact congrArg _ (pushWord_of_full (s := s.setInputs rest) p w ((hasRoom_eq_false_iff _ _).2 hfull))

/-! ## The channel in every step (R62, R64) -/

/-- Settles O40: by the cases of `step_cases`. A producer's step at most pushes (`producersTouchOnlyTheChannel`), and of
the instructions that the engine runs only `RESET` writes the channel. -/
theorem channelIsFirstInFirstOut : Obligations.ChannelIsFirstInFirstOut := by
  intro s t h
  have hproducer {x : Input} {rest : List Input} (hx : s.pending = x :: rest) (hp : x.byProducer = true) :
      t.chan = s.chan ∨ ∃ w, t.chan = s.chan ++ [w] := by
    obtain ⟨-, -, -, -, -, -, -, hchan⟩ := producersTouchOnlyTheChannel s t ⟨x, by simp [hx], hp⟩ h
    exact hchan
  rcases step_cases s t h with ⟨-, -, rfl⟩ | ⟨-, -, rfl⟩ | ⟨w, q, -, hq, e⟩ | ⟨rest, -, -, rfl⟩ |
    ⟨p, w, rest, -, hx, -⟩ | ⟨p, m, err, rest, -, hx, -, -⟩ | ⟨p, m, i, rest, -, hx, -, -⟩ | ⟨rq, rest, -, -, e⟩ |
    ⟨fs, rest, hd, hx, e⟩
  · exact .inl rfl
  · exact .inl rfl
  · exact .inr (.inl ⟨w, by rw [hq, exec_decodeCW_chan e]⟩)
  · exact .inl rfl
  · exact (hproducer hx rfl).imp_right fun hw => .inr (.inl hw)
  · exact (hproducer hx rfl).imp_right fun hw => .inr (.inl hw)
  · exact (hproducer hx rfl).imp_right fun hw => .inr (.inl hw)
  · exact .inl ((exec_decodeRQ_chan e).trans rfl)
  · exact .inr (.inr (.inr ⟨by rw [eq_of_exec_reset e]; rfl, hd, fs, rest, hx⟩))

/-! ## The end of a drain (R62, R191) -/

/-- During a drain the next step is the engine's or a producer's. -/
theorem engineTurn_or_byProducer {s : State} (hd : s.draining = true) :
    s.engineTurn = true ∨ ∃ x ∈ s.pending.head?, x.byProducer = true := by
  by_cases h : ∃ x ∈ s.pending.head?, x.byProducer = true
  · exact .inr h
  · exact .inl ((engineTurn_iff s).2 ⟨hd, by simpa using h⟩)

/-- A command word neither starts nor ends a drain (R160). -/
theorem exec_decodeCW_draining {w : CmdWord} {s t : State} (h : exec (decodeCW w) s = .next t) :
    t.draining = s.draining := by
  obtain ⟨F, hF⟩ := exec_decodeCW w
  rw [hF] at h
  cases h
  rfl

/-- Settles O10: neither a popped word (`exec_decodeCW_draining`) nor a producer's step
(`producersTouchOnlyTheChannel`) ends a drain, so the step that does is the pop of `step_pop_empty`. -/
theorem drainEndsAtFirstEmptyPop : Obligations.DrainEndsAtFirstEmptyPop := by
  refine ⟨step_pop_empty, fun s t hd h ht => ?_⟩
  rcases engineTurn_or_byProducer hd with hturn | hproducer
  · cases hc : s.chan with
    | nil =>
      rw [step_pop_empty s hturn hc] at h
      cases h
      exact ⟨rfl, by rw [← hc]⟩
    | cons w q =>
      rw [step_pop s w q hturn hc] at h
      have hkept : t.draining = true := (exec_decodeCW_draining h).trans hd
      simp [hkept] at ht
  · obtain ⟨-, -, -, hkept, -⟩ := producersTouchOnlyTheChannel s t hproducer h
    simp [hkept, hd] at ht

/-! ## Commands sent again (R71) -/

section Broadcast
variable {s : State} {f : Voice → Voice} (hf : ∀ v, f (f v) = f v)
include hf

theorem broadcast_broadcast_self : (s.broadcast f).broadcast f = s.broadcast f := by
  have hpool : (s.voices.map f).map f = s.voices.map f :=
    Pool.ext_get fun i => by simp only [Pool.get_map, hf]
  exact congrArg s.setVoices hpool

theorem wiredBroadcast_wiredBroadcast_self :
    wiredBroadcast (wiredBroadcast s f) f = wiredBroadcast s f := by
  cases hw : s.cfg.wireAdsr
  · simp [wiredBroadcast, hw]
  · simp [wiredBroadcast, hw, broadcast_broadcast_self hf]

end Broadcast

@[simp] theorem wiredBroadcast_num (s : State) (f : Voice → Voice) : (wiredBroadcast s f).num = s.num := by
  unfold wiredBroadcast; split <;> rfl

@[simp] theorem wiredBroadcast_fs (s : State) (f : Voice → Voice) : (wiredBroadcast s f).fs = s.fs := by
  unfold wiredBroadcast; split <;> rfl

section Resend
variable (s : State)

theorem exec_controlChange_twice {t : State} {c x : BitVec 7} (h : exec (.controlChange c x) s = .next t) :
    exec (.controlChange c x) t = .next t := by
  by_cases hc : c = modWheelCc
  · simp only [exec, execControlChange, if_pos hc] at h ⊢
    cases h
    exact congrArg _ (broadcast_broadcast_self fun _ => rfl)
  · simp only [exec, execControlChange, if_neg hc]

/-- A `PARAM_CHANGE` writes one register of every voice with a value that it does not read from the voices. -/
theorem exec_param_twice {t : State} {i : Instr} {v : V}
    (hi : i = .paramModRange v ∨ i = .paramLfoFreq v ∨ i = .paramAttack v ∨ i = .paramDecay v ∨
      i = .paramSustain v ∨ i = .paramRelease v)
    (h : exec i s = .next t) : exec i t = .next t := by
  rcases hi with rfl | rfl | rfl | rfl | rfl | rfl <;> cases h
  · exact congrArg Host.Outcome.next (broadcast_broadcast_self fun _ => rfl)
  · exact congrArg Host.Outcome.next (broadcast_broadcast_self fun _ => rfl)
  all_goals
    simp only [exec, execParamAttack, execParamDecay, execParamSustain, execParamRelease, wiredBroadcast_num,
      wiredBroadcast_fs]
    exact congrArg Host.Outcome.next (wiredBroadcast_wiredBroadcast_self fun _ => rfl)

/-- X2: `select_off` finds no voice. -/
theorem exec_noteOff_of_no_match {n : BitVec 7}
    (h : ∀ i : VoiceIx, ¬((s.voices.get i).note = n ∧ (s.voices.get i).state ≠ .off)) :
    exec (.noteOff n) s = .next s := by
  rw [exec, execNoteOff, (selectOff_eq_none _ _).2 h]

end Resend

/-- Settles O21: the broadcasts are constant writes, and an unmatched `NOTE_OFF` selects no voice. -/
theorem resendingParamsIsIdempotent : Obligations.ResendingParamsIsIdempotent := by
  refine ⟨fun s t v c x i hi h => ?_, fun s n => exec_noteOff_of_no_match s⟩
  rcases hi with rfl | hi
  · exact exec_controlChange_twice s h
  · exact exec_param_twice s hi h

/-! ## No effect without a drain (R66) -/

theorem steps_succ {s t : State} (h : step s = .next t) (k : Nat) : steps (k + 1) s = steps k t := by
  rw [steps, h]

/-- A message that yields no event is taken off the schedule (R214). -/
theorem step_midi_of_error {s : State} {p : Nat} {m : MidiMsg} {e : DecodeError} {rest : List Input}
    (hp : p < s.cfg.nProd) (h : s.pending = .midi p m :: rest) (hm : decodeMidi m = .error e) :
    step s = .next (s.setInputs rest) := by
  simp [step, fetch, h, fetchProducer, fetchMidi, hp, hm]

/-- A producer that exists always completes its step (R61, R210). -/
theorem step_producer_completes {s : State} {x : Input} {rest : List Input} (hx : s.pending = x :: rest)
    (hp : x.byProducer = true) (hadm : x.admitted s.cfg = true) : ∃ t, step s = .next t := by
  cases x with
  | push p w => exact ⟨_, step_push s p w rest (of_decide_eq_true hadm) hx⟩
  | midi p m =>
    have hlt : p < s.cfg.nProd := of_decide_eq_true hadm
    cases hm : decodeMidi m with
    | error e => exact ⟨_, step_midi_of_error hlt hx hm⟩
    | ok i =>
      obtain ⟨w, -, hw⟩ := exec_of_decodeMidi hm
      exact ⟨_, by rw [step_midi hlt hx hm, hw]⟩
  | request | reset | engine => cases hp

/-- The states `s` and `u` of two runs differ only in the channel, the schedule and the records of the producers. -/
structure SameEngine (s u : State) : Prop where
  voices : s.voices = u.voices
  fs : s.fs = u.fs
  samples : s.samples = u.samples
  draining : s.draining = u.draining
  cfg : s.cfg = u.cfg

/-- A producer's step is seen by no engine (R44). -/
theorem SameEngine.step_producer {s t u : State} (hsu : SameEngine s u) {x : Input} {rest : List Input}
    (hx : s.pending = x :: rest) (hp : x.byProducer = true) (h : step s = .next t) :
    SameEngine t u ∧ t.inputs = rest := by
  obtain ⟨hv, hf, hy, hd, hc, hi, -⟩ := producersTouchOnlyTheChannel s t ⟨x, by simp [hx], hp⟩ h
  rw [hx] at hi
  exact ⟨⟨hv.trans hsu.voices, hf.trans hsu.fs, hy.trans hsu.samples, hd.trans hsu.draining, hc.trans hsu.cfg⟩, hi⟩

/-- The state after a `TICK` (R190). -/
def State.ticked (s : State) : State :=
  (s.setVoices (s.voices.map fun v => (renderVoice s.num s.cfg.offEarlyExit s.fs v).2)).emitSample
    (mix s.num (voiceOutputs s.num s.cfg.offEarlyExit s.fs s.voices))

theorem step_tick {s : State} {rest : List Input} (hd : s.draining = false) (h : s.inputs = .request 0 :: rest) :
    step s = .next (s.setInputs rest).ticked :=
  step_request hd (s.pending_of_cons _ _ h)

/-- A `TICK` reads nothing that the two states differ in (R190). -/
theorem SameEngine.ticked {s u : State} (h : SameEngine s u) (l l' : List Input) :
    SameEngine (s.setInputs l).ticked (u.setInputs l').ticked := by
  obtain ⟨hv, hf, hy, hd, hc⟩ := h
  constructor <;> simp [State.ticked, State.num, hv, hf, hy, hd, hc]

/-- By induction on the schedule: a producer's step moves the first run only, a `TICK` moves both alike. -/
theorem SameEngine.exists_steps {l : List Input} {s u : State} (hsu : SameEngine s u) (hd : s.draining = false)
    (hs : s.inputs = l) (hu : u.inputs = l.filter fun x => !x.byProducer)
    (hl : ∀ x ∈ l, x.byProducer = true ∨ x = .request 0) (hadm : ∀ x ∈ l, x.admitted s.cfg = true) :
    ∃ t v, steps l.length s = some t ∧
      steps (l.filter fun x => !x.byProducer).length u = some v ∧ SameEngine t v := by
  induction l generalizing s u with
  | nil => exact ⟨s, u, rfl, rfl, hsu⟩
  | cons x rest ih =>
    obtain ⟨hx, hrest⟩ := List.forall_mem_cons.1 hl
    obtain ⟨hxadm, hrestadm⟩ := List.forall_mem_cons.1 hadm
    rcases hx with hp | rfl
    · have hpending := s.pending_of_cons _ _ hs
      obtain ⟨t, ht⟩ := step_producer_completes hpending hp hxadm
      obtain ⟨htu, hti⟩ := hsu.step_producer hpending hp ht
      have hcfg : t.cfg = s.cfg := htu.cfg.trans hsu.cfg.symm
      have htd : t.draining = false := htu.draining.trans (hsu.draining.symm.trans hd)
      have hfilter : (x :: rest).filter (fun x => !x.byProducer) = rest.filter fun x => !x.byProducer := by
        simp [hp]
      rw [hfilter] at hu ⊢
      rw [List.length_cons, steps_succ ht]
      exact ih htu htd hti hu hrest (hcfg ▸ hrestadm)
    · have hfilter : (Input.request 0 :: rest).filter (fun x => !x.byProducer) =
          .request 0 :: rest.filter fun x => !x.byProducer := rfl
      rw [hfilter] at hu ⊢
      rw [List.length_cons, List.length_cons, steps_succ (step_tick hd hs),
        steps_succ (step_tick (hsu.draining.symm.trans hd) hu)]
      exact ih (hsu.ticked _ _) hd rfl rfl hrest hrestadm

/-- Settles O42: the two runs stay `SameEngine`, to begin with because they start in one state. -/
theorem noEventTakesEffectWithoutDrain : Obligations.NoEventTakesEffectWithoutDrain := by
  intro s l hd hs hl hadm
  have hstart : SameEngine s { s with inputs := l.filter fun x => !x.byProducer } := ⟨rfl, rfl, rfl, rfl, rfl⟩
  obtain ⟨t, u, ht, hu, htu⟩ := hstart.exists_steps hd hs rfl hl hadm
  exact ⟨t, u, ht, hu, htu.voices, htu.samples, htu.fs⟩

end Sys2Proof.Machine

/-! PROOFS. The family of spec/30_encoding.md: the fields of words and messages (R91 to R95), decoder and encoder
against each other and against the mask and match tables (R96 to R99), and the assembler (R101, R102). -/

namespace Sys2Proof

/-! ## Words laid out bit by bit (R91, R95, R99) -/

/-- A bit 0 and seven bits, appended one after the other, are the eight-bit field of the seven. -/
theorem append_byte7 {k : Nat} (x : BitVec k) (n : BitVec 7) : x ++ 0#1 ++ n = (x ++ byte7 n : BitVec (k + 8)) := by
  rw [byte7, BitVec.append_assoc]
  rfl

theorem noteOnWord_eq_append (n : BitVec 7) (v : BitVec 32) :
    noteOnWord n v = 0x01#8 ++ 0#1 ++ n ++ 0#8 ++ 0#8 ++ v := by
  rw [append_byte7]
  rfl

theorem noteOffWord_eq_append (n : BitVec 7) :
    noteOffWord n = 0x02#8 ++ 0#1 ++ n ++ 0#8 ++ 0#8 ++ 0#32 := by
  rw [append_byte7]
  rfl

theorem controlChangeWord_eq_append (c x : BitVec 7) :
    controlChangeWord c x = 0x04#8 ++ 0#1 ++ c ++ 0#1 ++ x ++ 0#8 ++ 0#32 := by
  rw [append_byte7, append_byte7]
  rfl

theorem midiWord_eq_append (status ch : BitVec 4) (d1 d2 : BitVec 7) :
    midiWord status ch d1 d2 = status ++ ch ++ 0#1 ++ d1 ++ 0#1 ++ d2 := by
  rw [append_byte7, append_byte7]
  rfl

/-! ## `PARAM_CHANGE` (R93) -/

/-- The six parameter ids. -/
theorem param_cases {a : BitVec 8} (ha : a ≤ 5) : a = 0 ∨ a = 1 ∨ a = 2 ∨ a = 3 ∨ a = 4 ∨ a = 5 := by
  revert a
  decide

theorem paramInstr_ne_nop (a : BitVec 8) (value : V) : paramInstr a value ≠ .nop := by
  unfold paramInstr
  split <;> exact Instr.noConfusion

theorem wellFormed_paramInstr (a : BitVec 8) (value : V) : (paramInstr a value).wellFormed = onGrid value := by
  unfold paramInstr
  split <;> rfl

theorem encode_paramInstr {a : BitVec 8} (ha : a ≤ 5) (value : V) :
    encode (paramInstr a value) = .cw (paramWord a value) := by
  rcases param_cases ha with rfl | rfl | rfl | rfl | rfl | rfl <;> rfl

theorem decodeCW_paramFields {a : BitVec 8} (ha : a ≤ 5) (v : BitVec 32) :
    decodeCW (cwWord 0x03 a 0 0 v) = paramInstr a (wire v) := by
  rw [decodeCW_cwWord, if_neg (by decide), if_neg (by simp), if_neg (by simp), if_pos ⟨rfl, ha, rfl⟩]

/-- The payload of the encoded word is the operand, when an encoding can carry it (R12). -/
theorem decodeCW_paramWord {a : BitVec 8} (ha : a ≤ 5) {value : V} (hv : onGrid value = true) :
    decodeCW (paramWord a value) = paramInstr a value := by
  rw [paramWord, decodeCW_paramFields ha, wire_unwire hv]

/-! ## The decoder on command words (R97) -/

/-- A word decodes to `nop`, as every reserved one does, or has the fields that some command admits. -/
theorem decodeCW_eq_nop_or_word (w : CmdWord) :
    decodeCW w = .nop ∨ (∃ n v, w = noteOnWord n v) ∨ (∃ n, w = noteOffWord n) ∨
      (∃ a v, a ≤ 5 ∧ w = cwWord 0x03 a 0 0 v) ∨ ∃ c x, w = controlChangeWord c x := by
  rw [← cwWord_of_fields w]
  generalize w.extractLsb' 56 8 = op, w.extractLsb' 48 8 = a, w.extractLsb' 40 8 = b, w.extractLsb' 32 8 = z,
    w.extractLsb' 0 32 = v
  rw [decodeCW_cwWord]
  split_ifs with hz hOn hOff hParam hCc
  · exact .inl rfl
  all_goals obtain rfl : z = 0 := not_not.1 hz
  · obtain ⟨rfl, ha, rfl⟩ := hOn
    exact .inr (.inl ⟨_, v, by rw [noteOnWord, byte7_of_low a ha]⟩)
  · obtain ⟨rfl, ha, rfl, rfl⟩ := hOff
    exact .inr (.inr (.inl ⟨_, by rw [noteOffWord, byte7_of_low a ha]⟩))
  · obtain ⟨rfl, ha, rfl⟩ := hParam
    exact .inr (.inr (.inr (.inl ⟨a, v, ha, rfl⟩)))
  · obtain ⟨rfl, ha, hb, rfl⟩ := hCc
    exact .inr (.inr (.inr (.inr ⟨a.extractLsb' 0 7, b.extractLsb' 0 7, by
      rw [controlChangeWord, byte7_of_low a ha, byte7_of_low b hb]⟩)))
  · exact .inl rfl

/-- R96's list is what the decoder's tests leave over: `OP` decides which tests count. -/
theorem decodeCW_cwWord_eq_nop_iff (op a b z : BitVec 8) (v : BitVec 32) : decodeCW (cwWord op a b z v) = .nop ↔
    5 ≤ op.toNat ∨ op = 0#8 ∨ (op = 3#8 ∧ 6 ≤ a.toNat) ∨
      ((op = 1#8 ∨ op = 2#8 ∨ op = 4#8) ∧ a.msb = true) ∨ (op = 4#8 ∧ b.msb = true) ∨
      ((op = 1#8 ∨ op = 2#8 ∨ op = 3#8) ∧ b ≠ 0#8) ∨ z ≠ 0#8 ∨ ((op = 2#8 ∨ op = 4#8) ∧ v ≠ 0#32) := by
  rw [decodeCW_cwWord]
  have hid : a ≤ 5#8 ↔ ¬6 ≤ a.toNat := by bv_omega
  have hop : 5 ≤ op.toNat ∨ op = 0#8 ∨ op = 1#8 ∨ op = 2#8 ∨ op = 3#8 ∨ op = 4#8 := by bv_omega
  rcases hop with h5 | rfl | rfl | rfl | rfl | rfl
  · have hne : op ≠ 1#8 ∧ op ≠ 2#8 ∧ op ≠ 3#8 ∧ op ≠ 4#8 := by bv_omega
    simp [h5, hne]
  all_goals grind [paramInstr_ne_nop]

/-- A word that is not taken for `NOP` is the encoding of what it decodes to. -/
theorem encode_decodeCW_of_ne_nop {w : CmdWord} (h : decodeCW w ≠ .nop) : encode (decodeCW w) = .cw w := by
  rcases decodeCW_eq_nop_or_word w with hnop | ⟨n, v, rfl⟩ | ⟨n, rfl⟩ | ⟨a, v, ha, rfl⟩ | ⟨c, x, rfl⟩
  · exact absurd hnop h
  · rw [decodeCW_noteOnWord, encode, unwire_wire]
  · rw [decodeCW_noteOffWord, encode]
  · rw [decodeCW_paramFields ha, encode_paramInstr ha, paramWord, unwire_wire]
  · rw [decodeCW_controlChangeWord, encode]

theorem wellFormed_decodeCW (w : CmdWord) : (decodeCW w).wellFormed = true := by
  rcases decodeCW_eq_nop_or_word w with hnop | ⟨n, v, rfl⟩ | ⟨n, rfl⟩ | ⟨a, v, ha, rfl⟩ | ⟨c, x, rfl⟩
  · rw [hnop]; rfl
  · rw [decodeCW_noteOnWord]; exact onGrid_wire v
  · rw [decodeCW_noteOffWord]; rfl
  · rw [decodeCW_paramFields ha, wellFormed_paramInstr]; exact onGrid_wire v
  · rw [decodeCW_controlChangeWord]; rfl

/-! ## The decoder on MIDI messages (R99) -/

section MidiFields
variable (status ch : BitVec 4) (d1 d2 : BitVec 7)

theorem midiWord_status : (midiWord status ch d1 d2).extractLsb' 20 4 = status := by
  change (status ++ ch ++ byte7 d1 ++ byte7 d2).extractLsb' 20 4 = status
  rw [BitVec.extractLsb'_append_eq_of_le (by omega), BitVec.extractLsb'_append_eq_of_le (by omega)]
  exact BitVec.extractLsb'_append_eq_left

theorem midiWord_ch : (midiWord status ch d1 d2).extractLsb' 16 4 = ch := by
  change (status ++ ch ++ byte7 d1 ++ byte7 d2).extractLsb' 16 4 = ch
  rw [BitVec.extractLsb'_append_eq_of_le (by omega), BitVec.extractLsb'_append_eq_of_le (by omega)]
  exact BitVec.extractLsb'_append_eq_right

theorem midiWord_d1 : (midiWord status ch d1 d2).extractLsb' 8 8 = byte7 d1 := by
  change (status ++ ch ++ byte7 d1 ++ byte7 d2).extractLsb' 8 8 = byte7 d1
  rw [BitVec.extractLsb'_append_eq_of_le (by omega)]
  exact BitVec.extractLsb'_append_eq_right

theorem midiWord_d2 : (midiWord status ch d1 d2).extractLsb' 0 8 = byte7 d2 :=
  BitVec.extractLsb'_append_eq_right

/-- The decoder on a message given by its fields: the status nibble decides. -/
theorem decodeMidi_midiWord : decodeMidi (midiWord status ch d1 d2) =
    if status = 0x9 then .ok (.midiNoteOn ch d1 d2)
    else if status = 0x8 then .ok (.midiNoteOff ch d1 d2)
    else if status = 0xB then .ok (.midiCc ch d1 d2)
    else .error .unmappedStatus := by
  simp [decodeMidi, midiWord_status, midiWord_ch, midiWord_d1, midiWord_d2, byte7_msb, byte7_low]

end MidiFields

/-- A message whose data bytes have bit 7 zero is given by its fields. -/
theorem midiWord_of_fields (m : MidiMsg) (h1 : (m.extractLsb' 8 8).msb = false)
    (h2 : (m.extractLsb' 0 8).msb = false) :
    midiWord (m.extractLsb' 20 4) (m.extractLsb' 16 4) ((m.extractLsb' 8 8).extractLsb' 0 7)
      ((m.extractLsb' 0 8).extractLsb' 0 7) = m := by
  rw [midiWord, byte7_of_low _ h1, byte7_of_low _ h2]
  iterate 3 rw [BitVec.extractLsb'_append_extractLsb'_eq_extractLsb' (by rfl)]
  exact BitVec.extractLsb'_eq_self

/-- A message has a data byte with bit 7 set, and is rejected (R214), or is given by its fields. -/
theorem decodeMidi_eq_error_or_word (m : MidiMsg) :
    decodeMidi m = .error .dataByteHigh ∨ ∃ status ch d1 d2, m = midiWord status ch d1 d2 := by
  by_cases hdata : (m.extractLsb' 8 8).msb = true ∨ (m.extractLsb' 0 8).msb = true
  · exact .inl (if_pos hdata)
  · simp only [not_or, Bool.not_eq_true] at hdata
    exact .inr ⟨_, _, _, _, (midiWord_of_fields m hdata.1 hdata.2).symm⟩

/-- An accepted message is the encoding of what it decodes to. -/
theorem encode_of_decodeMidi {m : MidiMsg} {i : Instr} (h : decodeMidi m = .ok i) : encode i = .midi3 m := by
  rcases decodeMidi_eq_error_or_word m with herr | ⟨status, ch, d1, d2, rfl⟩
  · rw [herr] at h
    cases h
  · rw [decodeMidi_midiWord] at h
    split_ifs at h with h9 h8 hB
    all_goals
      subst status
      cases h
      rfl

/-! ## Decode and encode (R97 to R99) -/

/-- Settles O5: each instruction's word decodes to it, and a numeric payload survives because it is on the grid. -/
theorem decodeOfEncodeIsIdentity : Obligations.DecodeOfEncodeIsIdentity := by
  intro i hi
  cases i with
  | nop => rfl
  | noteOn n f => exact congrArg _ ((decodeCW_noteOnWord n _).trans (by rw [wire_unwire hi]))
  | noteOff n => exact congrArg _ (decodeCW_noteOffWord n)
  | paramAttack v => exact congrArg _ (decodeCW_paramWord (a := 0) (by decide) hi)
  | paramDecay v => exact congrArg _ (decodeCW_paramWord (a := 1) (by decide) hi)
  | paramSustain v => exact congrArg _ (decodeCW_paramWord (a := 2) (by decide) hi)
  | paramRelease v => exact congrArg _ (decodeCW_paramWord (a := 3) (by decide) hi)
  | paramModRange v => exact congrArg _ (decodeCW_paramWord (a := 4) (by decide) hi)
  | paramLfoFreq v => exact congrArg _ (decodeCW_paramWord (a := 5) (by decide) hi)
  | controlChange c v => exact congrArg _ (decodeCW_controlChangeWord c v)
  | tick => rfl
  | drain => rfl
  | reset fs => rfl
  | midiNoteOff ch n vel => exact decodeMidi_midiWord 0x8 ch n vel
  | midiNoteOn ch n vel => exact decodeMidi_midiWord 0x9 ch n vel
  | midiCc ch c v => exact decodeMidi_midiWord 0xB ch c v

/-- Settles O2: the bits laid out are the words of the encoder, and the decoder reads those. -/
theorem commandWordFieldsDecode : Obligations.CommandWordFieldsDecode :=
  ⟨fun n c x v =>
    ⟨noteOnWord_eq_append n v ▸ decodeCW_noteOnWord n v, noteOffWord_eq_append n ▸ decodeCW_noteOffWord n,
      decodeCW_paramFields (a := 0) (by decide) v, decodeCW_paramFields (a := 1) (by decide) v,
      decodeCW_paramFields (a := 2) (by decide) v, decodeCW_paramFields (a := 3) (by decide) v,
      decodeCW_paramFields (a := 4) (by decide) v, decodeCW_paramFields (a := 5) (by decide) v,
      controlChangeWord_eq_append c x ▸ decodeCW_controlChangeWord c x⟩,
    fun ch n x =>
      ⟨midiWord_eq_append 0x8 ch n x ▸ decodeMidi_midiWord 0x8 ch n x,
        midiWord_eq_append 0x9 ch n x ▸ decodeMidi_midiWord 0x9 ch n x,
        midiWord_eq_append 0xB ch n x ▸ decodeMidi_midiWord 0xB ch n x⟩⟩

/-! ## The mask and match tables (R97, R99) -/

/-- A word that selects two rows makes their patterns agree where both masks look. -/
theorem pattern_and_mask_of_selects {n : Nat} {w mask pattern mask' pattern' : BitVec n}
    (h : w &&& mask = pattern) (h' : w &&& mask' = pattern') : pattern &&& mask' = pattern' &&& mask := by
  rw [← h, ← h', BitVec.and_assoc, BitVec.and_assoc, BitVec.and_comm mask]

theorem and_0x80_eq_zero_iff (a : BitVec 8) : a &&& 0x80#8 = 0#8 ↔ a.msb = false := by
  revert a
  decide

theorem byte7_and_0x80 (n : BitVec 7) : byte7 n &&& 0x80#8 = 0#8 :=
  (and_0x80_eq_zero_iff _).2 (byte7_msb n)

theorem and_0xFF (a : BitVec 8) : a &&& 0xFF#8 = a := BitVec.and_allOnes

theorem and_0xFFFFFFFF (v : BitVec 32) : v &&& 0xFFFFFFFF#32 = v := BitVec.and_allOnes

section CwFields
variable (op a b z op' a' b' z' : BitVec 8) (v v' : BitVec 32)

theorem cwWord_and : cwWord op a b z v &&& cwWord op' a' b' z' v' =
    cwWord (op &&& op') (a &&& a') (b &&& b') (z &&& z') (v &&& v') := by
  change op ++ a ++ b ++ z ++ v &&& op' ++ a' ++ b' ++ z' ++ v' = _
  iterate 4 rw [BitVec.and_append]
  rfl

theorem cwWord_inj :
    cwWord op a b z v = cwWord op' a' b' z' v' ↔ op = op' ∧ a = a' ∧ b = b' ∧ z = z' ∧ v = v' := by
  constructor
  · intro h
    refine ⟨?_, ?_, ?_, ?_, ?_⟩
    · rw [← cwWord_op op a b z v, h, cwWord_op]
    · rw [← cwWord_a op a b z v, h, cwWord_a]
    · rw [← cwWord_b op a b z v, h, cwWord_b]
    · rw [← cwWord_z op a b z v, h, cwWord_z]
    · rw [← cwWord_v op a b z v, h, cwWord_v]
  · rintro ⟨rfl, rfl, rfl, rfl, rfl⟩
    rfl

end CwFields

/-- The table of R97 with each mask and each pattern cut into the fields of R91. -/
theorem cwRows_eq_fields : cwRows =
    [⟨"NOP", cwWord 0xFF 0xFF 0xFF 0xFF 0xFFFFFFFF, cwWord 0x00 0 0 0 0⟩,
     ⟨"NOTE_ON", cwWord 0xFF 0x80 0xFF 0xFF 0, cwWord 0x01 0 0 0 0⟩,
     ⟨"NOTE_OFF", cwWord 0xFF 0x80 0xFF 0xFF 0xFFFFFFFF, cwWord 0x02 0 0 0 0⟩,
     ⟨"PARAM_CHANGE.ATTACK", cwWord 0xFF 0xFF 0xFF 0xFF 0, cwWord 0x03 0 0 0 0⟩,
     ⟨"PARAM_CHANGE.DECAY", cwWord 0xFF 0xFF 0xFF 0xFF 0, cwWord 0x03 1 0 0 0⟩,
     ⟨"PARAM_CHANGE.SUSTAIN", cwWord 0xFF 0xFF 0xFF 0xFF 0, cwWord 0x03 2 0 0 0⟩,
     ⟨"PARAM_CHANGE.RELEASE", cwWord 0xFF 0xFF 0xFF 0xFF 0, cwWord 0x03 3 0 0 0⟩,
     ⟨"PARAM_CHANGE.MODRANGE", cwWord 0xFF 0xFF 0xFF 0xFF 0, cwWord 0x03 4 0 0 0⟩,
     ⟨"PARAM_CHANGE.LFOFREQ", cwWord 0xFF 0xFF 0xFF 0xFF 0, cwWord 0x03 5 0 0 0⟩,
     ⟨"CONTROL_CHANGE", cwWord 0xFF 0x80 0x80 0xFF 0xFFFFFFFF, cwWord 0x04 0 0 0 0⟩] := rfl

theorem CwRow.selects_iff (r : CwRow) (w : CmdWord) : r.selects w = true ↔ w &&& r.mask = r.pattern := by
  rw [CwRow.selects, beq_iff_eq]

/-- The rows are disjoint. -/
theorem cwRow_eq_of_selects {r r' : CwRow} {w : CmdWord} (hr : r ∈ cwRows) (hr' : r' ∈ cwRows)
    (h : r.selects w = true) (h' : r'.selects w = true) : r = r' := by
  have hdisjoint : ∀ r ∈ cwRows, ∀ r' ∈ cwRows,
      r.pattern &&& r'.mask = r'.pattern &&& r.mask → r = r' := by decide
  rw [CwRow.selects_iff] at h h'
  exact hdisjoint r hr r' hr' (pattern_and_mask_of_selects h h')

theorem cwRow_eq_of_mnemonic {r r' : CwRow} (hr : r ∈ cwRows) (hr' : r' ∈ cwRows)
    (h : r.mnemonic = r'.mnemonic) : r = r' :=
  List.inj_on_of_nodup_map (f := CwRow.mnemonic) (by decide) hr hr' h

/-- Field by field, a word selects a row when each field does. -/
theorem CwRow.selects_cwWord {name : String} {op a b z op' a' b' z' op'' a'' b'' z'' : BitVec 8}
    {v v' v'' : BitVec 32} :
    CwRow.selects ⟨name, cwWord op' a' b' z' v', cwWord op'' a'' b'' z'' v''⟩ (cwWord op a b z v) = true ↔
      op &&& op' = op'' ∧ a &&& a' = a'' ∧ b &&& b' = b'' ∧ z &&& z' = z'' ∧ v &&& v' = v'' := by
  rw [CwRow.selects_iff, cwWord_and, cwWord_inj]

/-- The word that encodes an instruction selects the row of its name. -/
theorem exists_cwRow_of_encode {i : Instr} {w : CmdWord} (h : encode i = .cw w) :
    ∃ r ∈ cwRows, r.selects w = true ∧ i.mnemonic = r.mnemonic := by
  rw [cwRows_eq_fields]
  cases i <;> cases h
  all_goals
    simp [Instr.mnemonic, noteOnWord, noteOffWord, paramWord, controlChangeWord, CwRow.selects_cwWord, and_0xFF,
      and_0xFFFFFFFF, byte7_and_0x80]

/-- A word that selects a row other than `NOP`'s has fields that are not on R96's list. -/
theorem encode_decodeCW_of_selects {r : CwRow} {w : CmdWord} (hr : r ∈ cwRows) (h : r.selects w = true) :
    encode (decodeCW w) = .cw w := by
  rw [← cwWord_of_fields w] at h ⊢
  generalize w.extractLsb' 56 8 = op, w.extractLsb' 48 8 = a, w.extractLsb' 40 8 = b, w.extractLsb' 32 8 = z,
    w.extractLsb' 0 32 = v at h ⊢
  rw [cwRows_eq_fields, List.mem_cons] at hr
  rcases hr with rfl | hr
  · simp only [CwRow.selects_cwWord, BitVec.ofNat_eq_ofNat, and_0xFF, and_0xFFFFFFFF] at h
    obtain ⟨rfl, rfl, rfl, rfl, rfl⟩ := h
    rfl
  · refine encode_decodeCW_of_ne_nop fun hnop => ?_
    rw [decodeCW_cwWord_eq_nop_iff] at hnop
    simp only [List.mem_cons, List.not_mem_nil, or_false] at hr
    rcases hr with rfl | rfl | rfl | rfl | rfl | rfl | rfl | rfl | rfl
    all_goals
      simp only [CwRow.selects_cwWord, BitVec.ofNat_eq_ofNat, and_0xFF, and_0xFFFFFFFF, and_0x80_eq_zero_iff] at h
      obtain ⟨rfl, ha, hb, rfl, hv⟩ := h
      simp [ha, hb, hv] at hnop

section MidiRows
variable {r r' : MidiRow} {m : MidiMsg}

theorem MidiRow.selects_iff (r : MidiRow) (m : MidiMsg) : r.selects m = true ↔ m &&& r.mask = r.pattern := by
  rw [MidiRow.selects, beq_iff_eq]

/-- The rows are disjoint. -/
theorem midiRow_eq_of_selects (hr : r ∈ midiRows) (hr' : r' ∈ midiRows)
    (h : r.selects m = true) (h' : r'.selects m = true) : r = r' := by
  have hdisjoint : ∀ r ∈ midiRows, ∀ r' ∈ midiRows,
      r.pattern &&& r'.mask = r'.pattern &&& r.mask → r = r' := by decide
  rw [MidiRow.selects_iff] at h h'
  exact hdisjoint r hr r' hr' (pattern_and_mask_of_selects h h')

theorem midiRow_eq_of_mnemonic (hr : r ∈ midiRows) (hr' : r' ∈ midiRows) (h : r.mnemonic = r'.mnemonic) : r = r' :=
  List.inj_on_of_nodup_map (f := MidiRow.mnemonic) (by decide) hr hr' h

/-- The mask of every row keeps the status nibble and bit 7 of the data bytes. -/
theorem midiWord_and_mask (status ch : BitVec 4) (d1 d2 : BitVec 7) :
    midiWord status ch d1 d2 &&& 0xF08080 = status ++ 0#20 := by
  change status ++ ch ++ byte7 d1 ++ byte7 d2 &&& 0xF#4 ++ 0#4 ++ 0x80#8 ++ 0x80#8 = _
  have hstatus : status &&& 0xF#4 = status := BitVec.and_allOnes
  iterate 3 rw [BitVec.and_append]
  rw [byte7_and_0x80, byte7_and_0x80, BitVec.and_zero, hstatus, BitVec.append_assoc, BitVec.append_assoc]
  rfl

theorem exists_midiWord_of_and_mask {status : BitVec 4} (h : m &&& 0xF08080 = status ++ 0#20) :
    ∃ ch d1 d2, m = midiWord status ch d1 d2 := by
  have hstatus : m.extractLsb' 20 4 = status := by
    have := congrArg (BitVec.extractLsb' 20 4) h
    rw [BitVec.extractLsb'_and] at this
    exact BitVec.and_allOnes.symm.trans (this.trans BitVec.extractLsb'_append_eq_left)
  have hd1 : (m.extractLsb' 8 8).msb = false := by
    have := congrArg (BitVec.extractLsb' 8 8) h
    rw [BitVec.extractLsb'_and, BitVec.extractLsb'_append_eq_of_add_le (by omega)] at this
    exact (and_0x80_eq_zero_iff _).1 this
  have hd2 : (m.extractLsb' 0 8).msb = false := by
    have := congrArg (BitVec.extractLsb' 0 8) h
    rw [BitVec.extractLsb'_and, BitVec.extractLsb'_append_eq_of_add_le (by omega)] at this
    exact (and_0x80_eq_zero_iff _).1 this
  exact ⟨_, _, _, hstatus ▸ (midiWord_of_fields m hd1 hd2).symm⟩

/-- The message that encodes an instruction selects the row of its name. -/
theorem exists_midiRow_of_encode {i : Instr} (h : encode i = .midi3 m) :
    ∃ r ∈ midiRows, r.selects m = true ∧ i.mnemonic = r.mnemonic := by
  simp only [MidiRow.selects_iff]
  cases i <;> cases h
  · exact ⟨⟨"MIDI.NOTE_OFF", 0xF08080, 0x800000⟩, by decide, midiWord_and_mask .., rfl⟩
  · exact ⟨⟨"MIDI.NOTE_ON", 0xF08080, 0x900000⟩, by decide, midiWord_and_mask .., rfl⟩
  · exact ⟨⟨"MIDI.CC", 0xF08080, 0xB00000⟩, by decide, midiWord_and_mask .., rfl⟩

/-- A message that selects a row is accepted. -/
theorem exists_decodeMidi_of_selects (hr : r ∈ midiRows) (h : r.selects m = true) : ∃ i, decodeMidi m = .ok i := by
  rw [MidiRow.selects_iff] at h
  simp only [midiRows, List.mem_cons, List.not_mem_nil, or_false] at hr
  rcases hr with rfl | rfl | rfl
  · obtain ⟨ch, d1, d2, rfl⟩ := exists_midiWord_of_and_mask (status := 0x8) h
    exact ⟨_, decodeMidi_midiWord ..⟩
  · obtain ⟨ch, d1, d2, rfl⟩ := exists_midiWord_of_and_mask (status := 0x9) h
    exact ⟨_, decodeMidi_midiWord ..⟩
  · obtain ⟨ch, d1, d2, rfl⟩ := exists_midiWord_of_and_mask (status := 0xB) h
    exact ⟨_, decodeMidi_midiWord ..⟩

end MidiRows

/-- What decodes to an instruction other than `nop` is its encoding, which selects the row of its name and no other. -/
theorem cwRow_selects_iff_mnemonic {r : CwRow} (hr : r ∈ cwRows) (hnop : r.mnemonic ≠ "NOP") (w : CmdWord) :
    r.selects w = true ↔ (decodeCW w).mnemonic = r.mnemonic := by
  constructor
  · intro h
    obtain ⟨r', hr', h', hname⟩ := exists_cwRow_of_encode (encode_decodeCW_of_selects hr h)
    rw [hname, cwRow_eq_of_selects hr hr' h h']
  · intro h
    have hne : decodeCW w ≠ .nop := fun e => hnop (by rw [← h, e]; rfl)
    obtain ⟨r', hr', h', hname⟩ := exists_cwRow_of_encode (encode_decodeCW_of_ne_nop hne)
    rwa [cwRow_eq_of_mnemonic hr hr' (h.symm.trans hname)]

theorem midiRow_selects_iff_mnemonic {r : MidiRow} (hr : r ∈ midiRows) (m : MidiMsg) :
    r.selects m = true ↔ ∃ i, decodeMidi m = .ok i ∧ i.mnemonic = r.mnemonic := by
  constructor
  · intro h
    obtain ⟨i, hi⟩ := exists_decodeMidi_of_selects hr h
    obtain ⟨r', hr', h', hname⟩ := exists_midiRow_of_encode (encode_of_decodeMidi hi)
    exact ⟨i, hi, by rw [hname, midiRow_eq_of_selects hr hr' h h']⟩
  · rintro ⟨i, hi, h⟩
    obtain ⟨r', hr', h', hname⟩ := exists_midiRow_of_encode (encode_of_decodeMidi hi)
    rwa [midiRow_eq_of_mnemonic hr hr' (h.symm.trans hname)]

/-- Settles O3: a word that selects no row is the encoding of no command, and a message that selects none is rejected. -/
theorem decoderFollowsMaskTable : Obligations.DecoderFollowsMaskTable := by
  refine ⟨fun w => ⟨fun r hr hnop => cwRow_selects_iff_mnemonic hr hnop w, fun hnone => ?_,
      fun r hr r' hr' => cwRow_eq_of_selects hr hr'⟩,
    fun m => ⟨fun r hr => midiRow_selects_iff_mnemonic hr m, ⟨fun hnone => ?_, ?_⟩,
      fun r hr r' hr' => midiRow_eq_of_selects hr hr'⟩⟩
  · by_contra hne
    obtain ⟨r, hr, h, -⟩ := exists_cwRow_of_encode (encode_decodeCW_of_ne_nop hne)
    simp [hnone r hr] at h
  · cases hm : decodeMidi m with
    | error e => exact ⟨e, rfl⟩
    | ok i =>
      obtain ⟨r, hr, h, -⟩ := exists_midiRow_of_encode (encode_of_decodeMidi hm)
      simp [hnone r hr] at h
  · rintro ⟨e, he⟩ r hr
    rw [Bool.eq_false_iff]
    intro h
    obtain ⟨i, hi⟩ := exists_decodeMidi_of_selects hr h
    simp [hi] at he

/-- Settles O6: one lemma for each clause, and for the requests the two bits. -/
theorem encodeOfDecodeIsIdentity : Obligations.EncodeOfDecodeIsIdentity :=
  ⟨fun _ ⟨_, hr, h⟩ => encode_decodeCW_of_selects hr h, by decide, fun _ _ => encode_of_decodeMidi,
    wellFormed_decodeCW⟩

/-- Settles O1: each word is a literal, which the decoder reads by evaluation. -/
theorem sampleWordsDecode : Obligations.SampleWordsDecode := by
  unfold Obligations.SampleWordsDecode
  decide +kernel

end Sys2Proof

namespace Sys2Proof.Machine

/-! ## Reserved words (R96, R170) -/

/-- Settles O4: R96's list is `decodeCW_cwWord_eq_nop_iff`, and a popped word runs by `step_pop`. -/
theorem reservedWordsDoNothing : Obligations.ReservedWordsDoNothing := by
  intro w
  have hlist := decodeCW_cwWord_eq_nop_iff (w.extractLsb' 56 8) (w.extractLsb' 48 8) (w.extractLsb' 40 8)
    (w.extractLsb' 32 8) (w.extractLsb' 0 32)
  rw [cwWord_of_fields, BitVec.msb_eq_getLsbD_last, BitVec.msb_eq_getLsbD_last] at hlist
  refine ⟨⟨fun h => .inr (hlist.1 h), ?_⟩, fun h s q hturn hq => ?_, fun _ => rfl⟩
  · rintro (rfl | h)
    · rfl
    · exact hlist.2 h
  · rw [step_pop s w q hturn hq, h]
    rfl

/-! ## The assembler (R101, R102) -/

/-- The multiple is at most half a step away, and an even one where two are. -/
theorem assembleValue_eq (r : V) : ∃ k : Int, assembleValue r = (k : V) / 65536 ∧
    (|r * 65536 - (k : V)| < 1 / 2 ∨ |r * 65536 - (k : V)| = 1 / 2 ∧ k % 2 = 0) := by
  refine ⟨_, rfl, ?_⟩
  have hlo : 0 ≤ r * 65536 - ((r * 65536).floor : V) := mod1_nonneg _
  have hhi : r * 65536 - ((r * 65536).floor : V) < 1 := mod1_lt_one _
  generalize r * 65536 = x at *
  generalize x.floor = lo at *
  split_ifs with hbelow habove heven
  · exact .inl (by rwa [abs_of_nonneg hlo])
  · refine .inl ?_
    push_cast
    rw [abs_lt]
    constructor <;> linarith
  all_goals have hhalf : x - (lo : V) = 1 / 2 := le_antisymm (not_lt.1 habove) (not_lt.1 hbelow)
  · exact .inr ⟨by rw [hhalf]; norm_num, heven⟩
  · have hneg : x - ((lo + 1 : Int) : V) = -(1 / 2) := by push_cast; linarith
    exact .inr ⟨by rw [hneg]; norm_num, by omega⟩

/-- Settles O46: dividing by 65536 turns half a step into `1/131072`. -/
theorem assemblerRoundsToNearestEven : Obligations.AssemblerRoundsToNearestEven := by
  intro r
  obtain ⟨k, hk, hdist⟩ := assembleValue_eq r
  have hscale : |r - assembleValue r| = |r * 65536 - (k : V)| / 65536 := by
    have hr : r - (k : V) / 65536 = (r * 65536 - k) / 65536 := by ring
    rw [hk, hr, abs_div, abs_of_pos (by norm_num : (0 : V) < 65536)]
  refine ⟨k, hk, ?_, ?_⟩ <;> rw [hscale]
  · rcases hdist with h | ⟨h, -⟩ <;> linarith
  · intro heq
    rcases hdist with h | ⟨-, hk⟩
    · linarith
    · exact hk

/-- Settles O45: the payload pattern of `NOTE_FREQ` is that of its value. -/
theorem midiFormsAreTheirExpansion : Obligations.MidiFormsAreTheirExpansion := by
  intro ch n x s i hi
  simp only [List.mem_cons, List.not_mem_nil, or_false] at hi
  rcases hi with rfl | rfl | rfl
  · refine ⟨midiNoteOnCmd n x, ?_, rfl⟩
    rw [expand, midiNoteOnCmd]
    split
    · rw [encode, unwire_wire]
    · rfl
  · exact ⟨noteOffWord n, rfl, rfl⟩
  · exact ⟨controlChangeWord n x, rfl, rfl⟩

end Sys2Proof.Machine

/-! PROOFS. The family of spec/40_voice.md: the envelope generator and the length of its ramps (R122 to R130), the
rendered sample (R131 to R137), and the way into and out of `Off` (R129, R171). -/

namespace Sys2Proof.Machine

/-! ## The rows of the envelope's table (R126 to R130) -/

section EnvelopeRows
variable {N : NumOps} {v : Voice}

theorem envStep_attack_of_one_le (hv : v.state = .attack) (h : 1 ≤ N.add v.amp v.attackRate) :
    envStep N v = { v with amp := 1, state := .decay } := by
  simp [envStep, hv, attackArm, h]

theorem envStep_attack_of_lt_one (hv : v.state = .attack) (h : N.add v.amp v.attackRate < 1) :
    envStep N v = { v with amp := N.add v.amp v.attackRate } := by
  simp [envStep, hv, attackArm, not_le.2 h]

theorem envStep_decay_of_le_sustain (hv : v.state = .decay) (h : N.sub v.amp v.decayRate ≤ v.sustain) :
    envStep N v = { v with amp := v.sustain, state := .sustain } := by
  simp [envStep, hv, decayArm, h]

theorem envStep_decay_of_sustain_lt (hv : v.state = .decay) (h : v.sustain < N.sub v.amp v.decayRate) :
    envStep N v = { v with amp := N.sub v.amp v.decayRate } := by
  simp [envStep, hv, decayArm, not_le.2 h]

theorem envStep_sustain (hv : v.state = .sustain) : envStep N v = v := by
  simp [envStep, hv, sustainArm]

theorem envStep_release_of_le_zero (hv : v.state = .release) (h : N.sub v.amp v.releaseRate ≤ 0) :
    envStep N v = { v with amp := 0, phase := 0, state := .off } := by
  simp [envStep, hv, releaseArm, h]

theorem envStep_release_of_pos (hv : v.state = .release) (h : 0 < N.sub v.amp v.releaseRate) :
    envStep N v = { v with amp := N.sub v.amp v.releaseRate } := by
  simp [envStep, hv, releaseArm, not_le.2 h]

theorem envStep_off (hv : v.state = .off) : envStep N v = v := by
  simp [envStep, hv]

/-- R129, R130: of the arms only `Release` ends in `Off`. -/
theorem envStep_state_eq_off_iff (N : NumOps) (v : Voice) :
    (envStep N v).state = .off ↔ v.state = .off ∨ (v.state = .release ∧ N.sub v.amp v.releaseRate ≤ 0) := by
  rcases envStep_cases N v with ⟨hst, -, e⟩ | ⟨hst, -, e⟩ | ⟨hst, -, e⟩ | ⟨hst, -, e⟩ | ⟨hst, e⟩ | ⟨hst, h, e⟩ |
    ⟨hst, h, e⟩ | ⟨hst, e⟩
  · simp [e, hst]
  · simp [e, hst]
  · simp [e, hst]
  · simp [e, hst]
  · simp [e, hst]
  · simp [e, hst, h]
  · simp [e, hst, h]
  · simp [e, hst]

end EnvelopeRows

/-- Settles O24: one lemma for each row of the table. -/
theorem envelopeStepFollowsTransitionTable : Obligations.EnvelopeStepFollowsTransitionTable := fun _ _ =>
  ⟨envStep_attack_of_one_le, envStep_attack_of_lt_one, envStep_decay_of_le_sustain, envStep_decay_of_sustain_lt,
    envStep_sustain, envStep_release_of_le_zero, envStep_release_of_pos, envStep_off⟩

/-! ## One rendered sample (R131 to R136) -/

section Render
variable {N : NumOps} {early : Bool} {v : Voice}

/-- R136: with the early exit the sample ends right after the envelope step that reached `Off`. -/
theorem renderVoice_of_exit (fs : V) (hv : v.state ≠ .off) (hearly : early = true) (hoff : (envStep N v).state = .off) :
    renderVoice N early fs v = (0, envStep N v) := by
  simp [renderVoice, hv, hearly, inState, hoff]

theorem renderVoice_of_no_exit (fs : V) (hv : v.state ≠ .off) (h : ¬(early = true ∧ (envStep N v).state = .off)) :
    renderVoice N early fs v = renderTail N fs (envStep N v) := by
  simp [renderVoice, hv, inState, h]

/-- R131 to R135, the modulation written as the product it is (`modulation_eq`). -/
theorem renderTail_eq (hN : N.Lawful) (fs : V) (v : Voice) : renderTail N fs v =
    (N.mul (N.sub (N.mul N.two v.phase) 1) v.amp,
     { v with
       lfoPhase := N.mod1 (N.add v.lfoPhase (N.div v.lfoFreq fs))
       phase := N.mod1 (N.add v.phase (N.div
         (max 0 (N.add v.base (N.mul (N.mul (N.sin v.lfoPhase) v.modWheel) v.modRange))) fs)) }) := by
  rw [renderTail, voiceFreq, effFreq, modulation_eq hN, maxV_eq_max]
  rfl

end Render

/-- Settles O25: a lemma for each way a sample can end, and `renderTail_eq` for the formulas. -/
theorem renderedSampleFollowsStepOrder : Obligations.RenderedSampleFollowsStepOrder := by
  intro N early fs v hN
  refine ⟨renderVoice_off N early fs, renderVoice_of_exit fs, ?_⟩
  rintro hv h e rfl
  rw [renderVoice_of_no_exit fs hv h, renderTail_eq hN]

/-- Settles O26: by N2 the amplitude 0 makes the output 0, and the phase 0 drops out of the sum. -/
theorem sampleThatReachesOff : Obligations.SampleThatReachesOff := by
  intro N fs v hN hv h
  have hne : v.state ≠ .off := by simp [hv]
  have hstep := envStep_release_of_le_zero hv h
  constructor
  · rw [renderVoice_of_exit fs hne rfl (by rw [hstep]), hstep]
  · rw [renderVoice_of_no_exit fs hne (by simp), renderTail_eq hN, hstep, hN.mul_zero,
      hN.zero_add _ (hN.div_mem _ _)]

/-- Settles O27: the ranges are `renderVoice_inRange`, the settings `renderVoice_settings`, and the setters write
other registers. -/
theorem renderingKeepsVoiceRanges : Obligations.RenderingKeepsVoiceRanges := by
  constructor
  · intro N early fs v hL hN hrep hv hs0 hs1 ha hd hr hoff
    obtain ⟨hattack, hdecay, hrelease, hsustain, -⟩ := Voice.settings_eq_iff.1 (renderVoice_settings N early fs v)
    exact ⟨renderVoice_inRange hL hN hrep hv ⟨hs0, hs1⟩ ⟨ha, hd, hr⟩ early fs, renderVoice_offSilent hoff early fs,
      hsustain, hattack, hdecay, hrelease⟩
  · intro N v n f fs x u hu
    simp only [List.mem_cons, List.not_mem_nil, or_false] at hu
    rcases hu with rfl | rfl | rfl | rfl | rfl <;> exact ⟨rfl, rfl, rfl⟩

/-! ## How long a ramp takes (R126, R127, R129) -/

/-- A ramp that moves by `rate` at each sample covers `distance` at sample `max 1 ⌈distance / rate⌉₊`, given what one
step does to the voice while less than the distance is covered, and what it does once it is covered. -/
theorem iterate_ramp {f : Voice → Voice} {v w : Voice} {amp : Nat → V} {distance rate : V} {n : Nat}
    (hrate : 0 < rate) (hn : n = max 1 ⌈distance / rate⌉₊) (hstart : amp 0 = v.amp)
    (hstep : ∀ k : Nat, (k + 1) * rate < distance → f { v with amp := amp k } = { v with amp := amp (k + 1) })
    (hlast : ∀ k : Nat, distance ≤ (k + 1) * rate → f { v with amp := amp k } = w) :
    (∀ k < n, f^[k] v = { v with amp := amp k }) ∧ f^[n] v = w := by
  have hramp (k : Nat) (hk : k < n) : f^[k] v = { v with amp := amp k } := by
    induction k with
    | zero => rw [hstart]; rfl
    | succ k ih =>
      have hceil : k + 1 < ⌈distance / rate⌉₊ := by omega
      have hshort : ((k + 1 : Nat) : V) < distance / rate := Nat.lt_ceil.1 hceil
      rw [lt_div_iff₀ hrate, Nat.cast_succ] at hshort
      rw [Function.iterate_succ_apply', ih (by omega), hstep k hshort]
  obtain ⟨m, rfl⟩ : ∃ m, n = m + 1 := ⟨n - 1, by omega⟩
  have hfar : distance / rate ≤ ((m + 1 : Nat) : V) := Nat.ceil_le.1 (by omega)
  rw [div_le_iff₀ hrate, Nat.cast_succ] at hfar
  exact ⟨hramp, by rw [Function.iterate_succ_apply', hramp m m.lt_succ_self, hlast m hfar]⟩

/-- Settles O28: the distance is `1 - amp`. -/
theorem attackReachesOneOnTime : Obligations.AttackReachesOneOnTime := by
  intro v n hv _ hrate hn
  refine iterate_ramp (amp := fun k => v.amp + k * v.attackRate) hrate hn (by simp) (fun k hk => ?_) (fun k hk => ?_)
  · have hsum : v.amp + k * v.attackRate + v.attackRate = v.amp + (k + 1 : Nat) * v.attackRate := by push_cast; ring
    exact Eq.trans (envStep_attack_of_lt_one hv (by rw [NumOps.exact_add]; linarith))
      (congrArg (fun a => { v with amp := a }) hsum)
  · exact envStep_attack_of_one_le hv (by rw [NumOps.exact_add]; linarith)

/-- R28, R37 (b). -/
theorem rateOf_exact_pos (sec : V) {fs : V} (hfs : 0 < fs) : 0 < rateOf NumOps.exact sec fs :=
  NumOps.exact_positiveRates.rate_pos sec fs rfl rfl hfs

/-- R122 to R124 in `EXACT`: the samples that a rate needs for a distance are that share of its time. -/
theorem div_rateOf_exact (distance sec fs : V) :
    distance / rateOf NumOps.exact sec fs = distance * (max sec (1 / 1000) * fs) := by
  rw [rateOf, NumOps.exact_div, NumOps.exact_mul, maxV_eq_max, NumOps.exact_minTime, one_div, div_inv_eq_mul]

/-- Settles O29: the distance is `1 - sustain`. -/
theorem decayReachesSustainOnTime : Obligations.DecayReachesSustainOnTime := by
  intro v fs sec n hv hamp _ hfs hrate hn
  rw [← div_rateOf_exact, ← hrate] at hn
  have hpos : 0 < v.decayRate := hrate ▸ rateOf_exact_pos sec hfs
  refine iterate_ramp (amp := fun k => 1 - k * v.decayRate) hpos hn (by simp [hamp]) (fun k hk => ?_) (fun k hk => ?_)
  · have hdiff : 1 - k * v.decayRate - v.decayRate = 1 - (k + 1 : Nat) * v.decayRate := by push_cast; ring
    exact Eq.trans (envStep_decay_of_sustain_lt hv (by rw [NumOps.exact_sub]; linarith))
      (congrArg (fun a => { v with amp := a }) hdiff)
  · exact envStep_decay_of_le_sustain hv (by rw [NumOps.exact_sub]; linarith)

/-- Settles O30: the distance is `amp`. -/
theorem releaseReachesOffOnTime : Obligations.ReleaseReachesOffOnTime := by
  intro v fs sec n hv _ hfs hrate hn
  rw [← div_rateOf_exact, ← hrate] at hn
  have hpos : 0 < v.releaseRate := hrate ▸ rateOf_exact_pos sec hfs
  refine iterate_ramp (amp := fun k => v.amp - k * v.releaseRate) hpos hn (by simp) (fun k hk => ?_) (fun k hk => ?_)
  · have hdiff : v.amp - k * v.releaseRate - v.releaseRate = v.amp - (k + 1 : Nat) * v.releaseRate := by
      push_cast; ring
    exact Eq.trans (envStep_release_of_pos hv (by rw [NumOps.exact_sub]; linarith))
      (congrArg (fun a => { v with amp := a }) hdiff)
  · exact envStep_release_of_le_zero hv (by rw [NumOps.exact_sub]; linarith)

/-! ## Into `Off` and out of it (R129, R130, R171) -/

/-- Everything an instruction can do to the state register of one voice. -/
theorem exec_voice_state {i : Instr} {s t : State} (h : exec i s = .next t) (j : VoiceIx) :
    (t.voices.get j).state = (s.voices.get j).state ∨
    ((∃ n f, i = .noteOn n f) ∧ (t.voices.get j).state = .attack) ∨
    ((∃ n, i = .noteOff n) ∧ (s.voices.get j).state ≠ .off ∧ (t.voices.get j).state = .release) ∨
    (i = .tick ∧ (t.voices.get j).state = (envStep s.num (s.voices.get j)).state) ∨
    ((∃ fs, i = .reset fs) ∧ (t.voices.get j).state = .off) := by
  rcases exec_voice i s t h j with e | ⟨n, f, hi, -, e⟩ | ⟨n, hi, hsel, e⟩ | ⟨x, -, e⟩ | ⟨x, -, e⟩ | ⟨x, -, e⟩ |
    ⟨x, -, -, e⟩ | ⟨x, -, -, e⟩ | ⟨x, -, -, e⟩ | ⟨x, -, -, e⟩ | ⟨hi, e⟩ | ⟨fs, hi, -, -, e⟩
  · exact .inl (congrArg Voice.state e)
  · exact .inr (.inl ⟨⟨n, f, hi⟩, congrArg Voice.state e⟩)
  · obtain ⟨⟨-, hsounds⟩, -⟩ := (selectOff_eq_some _ _ _).1 hsel
    exact .inr (.inr (.inl ⟨⟨n, hi⟩, hsounds, congrArg Voice.state e⟩))
  · exact .inl (by simp [e])
  · exact .inl (by simp [e])
  · exact .inl (by simp [e])
  · exact .inl (by simp [e, voiceSetAttack])
  · exact .inl (by simp [e, voiceSetDecay])
  · exact .inl (by simp [e, voiceSetSustain])
  · exact .inl (by simp [e, voiceSetRelease])
  · obtain ⟨hstate, -⟩ := renderVoice_state s.num s.cfg.offEarlyExit s.fs (s.voices.get j)
    exact .inr (.inr (.inr (.inl ⟨hi, by rw [e, hstate]⟩)))
  · exact .inr (.inr (.inr (.inr ⟨⟨fs, hi⟩, congrArg Voice.state e⟩)))

/-- Settles O51: of the cases of `exec_voice_state`, `TICK` and `RESET` can end in `Off`, and `NOTE_ON` alone leaves
it. -/
theorem onlyReleaseReachesOff : Obligations.OnlyReleaseReachesOff := by
  intro i s t j h
  rcases exec_voice_state h j with e | ⟨hi, e⟩ | ⟨-, hsounds, e⟩ | ⟨hi, e⟩ | ⟨hi, e⟩ <;> rw [e]
  · exact ⟨fun hon hoff => absurd hoff hon, fun hoff hon => absurd hoff hon⟩
  · exact ⟨fun _ hoff => (by cases hoff), fun _ _ => ⟨hi, rfl⟩⟩
  · exact ⟨fun _ hoff => (by cases hoff), fun hoff _ => absurd hoff hsounds⟩
  · have hreach := envStep_state_eq_off_iff s.num (s.voices.get j)
    exact ⟨fun hon hoff => .inl ⟨hi, (hreach.1 hoff).resolve_left hon⟩,
      fun hoff hon => absurd (hreach.2 (.inl hoff)) hon⟩
  · exact ⟨fun _ _ => .inr hi, fun _ hon => absurd rfl hon⟩

end Sys2Proof.Machine

/-! PROOFS. The family of spec/41_engine_events.md: what a popped word may write (R160), the note commands (R161, R162,
R171, R172) and the broadcast commands (R163 to R169). -/

namespace Sys2Proof.Machine

/-- Settles O12: `exec_decodeCW` says of every word that it answers the state with another pool. -/
theorem commandWordsTouchOnlyVoices : Obligations.CommandWordsTouchOnlyVoices := by
  intro w s
  obtain ⟨F, hF⟩ := exec_decodeCW w
  exact ⟨_, hF s, rfl⟩

/-! ## Note commands (R161, R162) -/

theorem Pool.set_get_self (p : Pool) (i : VoiceIx) : p.set i (p.get i) = p := by
  refine Pool.ext_get fun j => ?_
  rw [Pool.get_set]
  split
  · next hj => rw [hj]
  · rfl

section Note
variable {s : State} {n : BitVec 7} {i : VoiceIx}

theorem State.updateVoice_eq_self {f : Voice → Voice} (hf : f (s.voices.get i) = s.voices.get i) :
    s.updateVoice i f = s := by
  rw [State.updateVoice, hf, Pool.set_get_self]
  rfl

/-- The written voice, and the frame of the others. -/
theorem State.get_updateVoice (s : State) (i : VoiceIx) (f : Voice → Voice) :
    (s.updateVoice i f).voices.get i = f (s.voices.get i) ∧
      ∀ j, j ≠ i → (s.updateVoice i f).voices.get j = s.voices.get j :=
  ⟨Pool.get_set_self _ _ _, fun _ => Pool.get_set_other _ _⟩

theorem exec_noteOn_of_selected (f : V) (h : selectOn s.voices = some i) :
    exec (.noteOn n f) s = .next (s.updateVoice i (voiceNoteOn n (s.num.ofWire f))) := by
  rw [exec, execNoteOn, h]

/-- X1: the note is dropped. -/
theorem exec_noteOn_of_no_voice (f : V) (h : selectOn s.voices = none) : exec (.noteOn n f) s = .next s := by
  rw [exec, execNoteOn, h]

theorem exec_noteOff_of_selected (h : selectOff s.voices n = some i) :
    exec (.noteOff n) s = .next (s.updateVoice i voiceNoteOff) := by
  rw [exec, execNoteOff, h]

theorem voiceNoteOff_of_release {v : Voice} (hv : v.state = .release) : voiceNoteOff v = v := by
  rw [voiceNoteOff, ← hv]

/-- R162 (b): the selected voice is in `Release` already. -/
theorem exec_noteOff_of_releasing (h : selectOff s.voices n = some i) (hi : (s.voices.get i).state = .release) :
    exec (.noteOff n) s = .next s := by
  rw [exec_noteOff_of_selected h, State.updateVoice_eq_self (voiceNoteOff_of_release hi)]

end Note

/-- Settles O13: the two conditions on an index are `selectOn_eq_some`, those of the dropped note `selectOn_eq_none`. -/
theorem noteOnAllocatesVoice : Obligations.NoteOnAllocatesVoice := by
  intro n f s
  cases hsel : selectOn s.voices with
  | none =>
    refine ⟨s, exec_noteOn_of_no_voice f hsel, rfl, fun i hi => ?_, fun _ => rfl⟩
    rw [(selectOn_eq_some _ i).2 hi] at hsel
    cases hsel
  | some k =>
    refine ⟨_, exec_noteOn_of_selected f hsel, rfl, fun i hi => ?_, fun hnone => ?_⟩
    · obtain rfl : k = i := Option.some.inj (hsel.symm.trans ((selectOn_eq_some _ i).2 hi))
      exact s.get_updateVoice k _
    · rw [(selectOn_eq_none _).2 hnone] at hsel
      cases hsel

/-- Settles O14: the condition on an index is `selectOff_eq_some`, the one of no match `selectOff_eq_none`. -/
theorem noteOffReleasesFirstMatch : Obligations.NoteOffReleasesFirstMatch := by
  intro n s
  cases hsel : selectOff s.voices n with
  | none =>
    have hno := (selectOff_eq_none _ _).1 hsel
    exact ⟨s, exec_noteOff_of_no_match s hno, rfl, fun i hn hon _ => absurd ⟨hn, hon⟩ (hno i), fun _ => rfl⟩
  | some k =>
    refine ⟨_, exec_noteOff_of_selected hsel, rfl, fun i hn hon hfirst => ?_, fun hno => ?_⟩
    · have hi : selectOff s.voices n = some i := (selectOff_eq_some _ _ _).2 ⟨⟨hn, hon⟩, hfirst⟩
      obtain rfl : k = i := Option.some.inj (hsel.symm.trans hi)
      exact s.get_updateVoice k _
    · obtain ⟨hk, -⟩ := (selectOff_eq_some _ _ _).1 hsel
      exact absurd hk (hno k)

/-- Settles O15: the first match is the releasing voice, which `NOTE_OFF` leaves as it is. -/
theorem releasingVoiceAbsorbsNoteOff : Obligations.ReleasingVoiceAbsorbsNoteOff := by
  intro n s i k e _ hn hrelease hfirst _ hk _
  have hon : (s.voices.get i).state ≠ .off := by simp [hrelease]
  have hsel : selectOff s.voices n = some i := (selectOff_eq_some _ _ _).2 ⟨⟨hn, hon⟩, hfirst⟩
  exact ⟨s, exec_noteOff_of_releasing hsel hrelease, rfl, hk⟩

/-! ## Broadcast commands (R163 to R169) -/

section Broadcast
variable {i : Instr} {s : State} {f : Voice → Voice}

/-- A broadcast writes every voice and nothing else (R67). -/
theorem exists_next_of_broadcast (h : exec i s = .next (s.broadcast f)) :
    ∃ t, exec i s = .next t ∧ t = { s with voices := t.voices } ∧ ∀ j, t.voices.get j = f (s.voices.get j) :=
  ⟨_, h, rfl, Pool.get_map f s.voices⟩

theorem exec_of_wired (h : exec i s = .next (wiredBroadcast s f)) (hw : s.cfg.wireAdsr = true) :
    exec i s = .next (s.broadcast f) := by
  rw [h, wiredBroadcast, if_pos hw]

/-- X4: without `P_WIRE_ADSR` the command is ignored. -/
theorem exec_of_unwired (h : exec i s = .next (wiredBroadcast s f)) (hw : s.cfg.wireAdsr = false) :
    exec i s = .next s := by
  simp [h, wiredBroadcast, hw]

end Broadcast

theorem exec_controlChange_wheel (s : State) (v : BitVec 7) :
    exec (.controlChange 1 v) s = .next (s.broadcast fun x => { x with modWheel := s.num.div (v.toNat : V) 127 }) := by
  rw [← wheelDepth_eq s.num_lawful v]
  rfl

/-- X3: only controller 1 acts. -/
theorem exec_controlChange_other (s : State) {c : BitVec 7} (v : BitVec 7) (hc : c ≠ modWheelCc) :
    exec (.controlChange c v) s = .next s := by
  rw [exec, execControlChange, if_neg hc]

/-- Settles O17: range and ends of the depth are laws of the number system (`NumOps.Lawful`). -/
theorem controlChangeSetsModWheel : Obligations.ControlChangeSetsModWheel := by
  intro c v s
  refine ⟨?_, exec_controlChange_other s v⟩
  rintro rfl
  obtain ⟨t, ht, hframe, hwheel⟩ := exists_next_of_broadcast (exec_controlChange_wheel s v)
  obtain ⟨hlow, hhigh⟩ := s.num_lawful.wheel_range v
  refine ⟨t, ht, hframe, fun i => ?_⟩
  rw [hwheel i]
  refine ⟨rfl, hlow, hhigh, ?_, ?_, fun hexact => ?_⟩
  · rintro rfl
    exact s.num_lawful.wheel_full
  · rintro rfl
    exact s.num_lawful.wheel_zero
  · rw [State.num_of_exact hexact, NumOps.exact_div]

/-- Settles O18: both commands are broadcasts, whatever the value. -/
theorem modulationParamsAreStoredAsGiven : Obligations.ModulationParamsAreStoredAsGiven := fun v s =>
  ⟨exists_next_of_broadcast (i := .paramModRange v) rfl, exists_next_of_broadcast (i := .paramLfoFreq v) rfl,
    fun hexact => by rw [State.num_of_exact hexact, NumOps.exact_ofWire]⟩

/-- Settles O19: the three commands are broadcasts behind the switch, and their rate is `rateOf`. -/
theorem rateParamsFollowSwitch : Obligations.RateParamsFollowSwitch := by
  rintro v r s rfl
  have hattack : exec (.paramAttack v) s = .next (wiredBroadcast s (voiceSetAttack s.num s.fs (s.num.ofWire v))) := rfl
  have hdecay : exec (.paramDecay v) s = .next (wiredBroadcast s (voiceSetDecay s.num s.fs (s.num.ofWire v))) := rfl
  have hrelease : exec (.paramRelease v) s = .next (wiredBroadcast s (voiceSetRelease s.num s.fs (s.num.ofWire v))) :=
    rfl
  refine ⟨fun hexact => ?_, fun hw => ?_, fun hw => ?_⟩
  · rw [State.num_of_exact hexact]
    rfl
  · exact ⟨exists_next_of_broadcast (exec_of_wired hattack hw), exists_next_of_broadcast (exec_of_wired hdecay hw),
      exists_next_of_broadcast (exec_of_wired hrelease hw)⟩
  · exact ⟨exec_of_unwired hattack hw, exec_of_unwired hdecay hw, exec_of_unwired hrelease hw⟩

/-- Settles O20: the command is a broadcast of the clamped level behind the switch, and `clamp01` is its range. -/
theorem sustainParamIsClamped : Obligations.SustainParamIsClamped := by
  intro v s
  have hsustain : exec (.paramSustain v) s = .next (wiredBroadcast s (voiceSetSustain (s.num.ofWire v))) := rfl
  refine ⟨fun hw => ?_, exec_of_unwired hsustain⟩
  obtain ⟨t, ht, hframe, hlevel⟩ := exists_next_of_broadcast (exec_of_wired hsustain hw)
  refine ⟨t, ht, hframe, fun i => ?_⟩
  rw [hlevel i]
  exact ⟨rfl, clamp01 (s.num.ofWire v)⟩

end Sys2Proof.Machine

/-! PROOFS. The family of spec/42_engine_render.md: the mixed sample and its range (R190, R193), the drain loop
(R191) and the output buffer (R192). -/

namespace Sys2Proof.Machine

/-! ## The mixed sample (R190) -/

theorem exec_tick (s : State) : exec .tick s = .next s.ticked := rfl

/-- Settles O31: the pool is mapped, and the fold over its eight outputs is the sum written out. -/
theorem tickMixesEveryVoice : Obligations.TickMixesEveryVoice := by
  rintro s N rfl
  refine ⟨s.ticked, exec_tick s, rfl, Pool.get_map _ s.voices, fun o ho => ?_, fun h => ?_⟩
  · obtain rfl := funext ho
    rfl
  · rw [State.num_of_exact h, NumOps.exact_mixGain]

/-! ## The range of the sample (R134, R193) -/

/-- R133, R134: the sawtooth of a phase in `[0, 1)` lies in `[-1, 1)`, and the amplitude scales it. -/
theorem renderTail_exact_output {v : Voice} (hv : v.InRange) (fs : V) :
    |(renderTail .exact fs v).1| ≤ v.amp ∧ (renderTail .exact fs v).1 < 1 := by
  obtain ⟨hamp0, hamp1, hphase0, hphase1, -⟩ := hv
  have hout : (renderTail .exact fs v).1 = (2 * v.phase - 1) * v.amp := rfl
  have hwave : |2 * v.phase - 1| ≤ 1 := abs_le.2 ⟨by linarith, by linarith⟩
  rw [hout]
  constructor
  · rw [abs_mul, abs_of_nonneg hamp0]
    exact mul_le_of_le_one_left hamp0 hwave
  · nlinarith

section Output
variable {v : Voice} (hv : v.Ok) (early : Bool) (fs : V)
include hv

/-- R134, R136: the output is bounded by the amplitude after the envelope step, and stays below 1. -/
theorem renderVoice_exact_output :
    |(renderVoice .exact early fs v).1| ≤ (renderVoice .exact early fs v).2.amp ∧
      (renderVoice .exact early fs v).1 < 1 := by
  obtain ⟨hrange, ⟨hs0, hs1, ha, hd, hr, -⟩, -⟩ := hv
  have hstep : (envStep .exact v).InRange :=
    envStep_inRange NumOps.exact_keepsSigns (fun _ _ => rfl) hrange ⟨hs0, hs1⟩ ⟨ha, hd, hr⟩
  rcases renderVoice_cases .exact early fs v with ⟨-, e⟩ | ⟨-, -, -, e⟩ | ⟨-, -, e⟩ <;> rw [e]
  · exact ⟨abs_zero.trans_le hrange.1, zero_lt_one⟩
  · exact ⟨abs_zero.trans_le hstep.1, zero_lt_one⟩
  · exact renderTail_exact_output hstep fs

/-- R38, R137: an `Off` voice stays silent, and no amplitude is above 1. -/
theorem renderVoice_exact_amp_le :
    (renderVoice .exact early fs v).2.amp ≤ if !inState .off v then 1 else 0 := by
  by_cases hoff : v.state = .off
  · simp [renderVoice_off _ _ _ hoff, inState, hoff, hv.2.2 hoff]
  · obtain ⟨⟨-, hamp, -⟩, -⟩ :=
      renderVoice_ok NumOps.exact_lawful NumOps.exact_keepsSigns (fun _ _ => rfl) hv early fs
    simpa [inState, hoff] using hamp

end Output

theorem mix_exact (outs : List V) : mix .exact outs = 1 / 5 * outs.sum := by
  rw [List.sum_eq_foldl]
  exact mul_comm _ _

/-- The triangle inequality, each summand with its own bound. -/
theorem abs_sum_map_le {l : List Voice} {f g : Voice → V} (h : ∀ v ∈ l, |f v| ≤ g v) :
    |(l.map f).sum| ≤ (l.map g).sum :=
  calc |(l.map f).sum|
      ≤ (l.map fun v => |f v|).sum := by
        simpa [Function.comp_def] using Multiset.abs_sum_le_sum_abs (s := (l.map f : Multiset V))
    _ ≤ (l.map g).sum := List.sum_le_sum h

/-- Summands that are at most 1, and at most 0 off the predicate, add up to no more than the count. -/
theorem sum_map_le_length_filter {l : List Voice} {g : Voice → V} {P : Voice → Bool}
    (h : ∀ v ∈ l, g v ≤ if P v then 1 else 0) : (l.map g).sum ≤ ((l.filter P).length : V) := by
  induction l with
  | nil => simp
  | cons v l ih =>
    obtain ⟨hv, hl⟩ := List.forall_mem_cons.1 h
    have hcount : (((v :: l).filter P).length : V) = (if P v then 1 else 0) + (l.filter P).length := by
      cases hP : P v <;> simp [hP, add_comm]
    rw [hcount, List.map_cons, List.sum_cons]
    exact add_le_add hv (ih hl)

theorem Pool.forall_mem_toList {p : Pool} {P : Voice → Prop} (h : ∀ i, P (p.get i)) : ∀ v ∈ p.toList, P v := by
  rw [Pool.toList_eq, List.forall_mem_map]
  exact fun i _ => h i

theorem Pool.toList_map (f : Voice → Voice) (p : Pool) : (p.map f).toList = p.toList.map f := rfl

section Mix
variable {p : Pool} (hp : ∀ v ∈ p.toList, v.Ok) (early : Bool) (fs : V)
include hp

theorem abs_sum_voiceOutputs_le : |(voiceOutputs .exact early fs p).sum| ≤
    ((p.map fun v => (renderVoice .exact early fs v).2).toList.map Voice.amp).sum := by
  rw [Pool.toList_map, List.map_map]
  exact abs_sum_map_le fun v hv => (renderVoice_exact_output (hp v hv) early fs).1

theorem sum_voiceOutputs_lt : (voiceOutputs .exact early fs p).sum < 8 :=
  calc (voiceOutputs .exact early fs p).sum
      < (p.toList.map fun _ => (1 : V)).sum :=
        List.sum_lt_sum_of_ne_nil (List.cons_ne_nil _ _) _ _ fun v hv => (renderVoice_exact_output (hp v hv) _ _).2
    _ = 8 := by norm_num [Pool.toList]

theorem sum_amps_le_sounding :
    ((p.map fun v => (renderVoice .exact early fs v).2).toList.map Voice.amp).sum ≤
      ((p.toList.filter fun v => !inState .off v).length : V) := by
  rw [Pool.toList_map, List.map_map]
  exact sum_map_le_length_filter fun v hv => renderVoice_exact_amp_le (hp v hv) early fs

end Mix

/-- The reset state with every voice in `Sustain` at full amplitude and phase 0, where the sawtooth is -1. -/
def loudState : State := State.reset.broadcast fun v => { v with state := .sustain, amp := 1, sustain := 1 }

/-- Settles O32: the sum of the outputs is bounded by the new amplitudes, these by the number of sounding voices, and
it stays below 8; the minimum is one closed evaluation. -/
theorem sampleStaysInOutputRange : Obligations.SampleStaysInOutputRange := by
  refine ⟨?_, loudState, loudState.ticked, by decide +kernel, rfl, rfl, by decide +kernel⟩
  rintro s t ⟨-, -, -, hok, -, -⟩ hexact h
  cases h
  have hvoices : ∀ v ∈ s.voices.toList, v.Ok := Pool.forall_mem_toList hok
  have hsum := abs_sum_voiceOutputs_le hvoices s.cfg.offEarlyExit s.fs
  have hlt := sum_voiceOutputs_lt hvoices s.cfg.offEarlyExit s.fs
  have hamps := sum_amps_le_sounding hvoices s.cfg.offEarlyExit s.fs
  have hpool : ((s.voices.toList.filter fun v => !inState .off v).length : V) ≤ 8 :=
    Nat.cast_le_ofNat.2 (List.length_filter_le _ s.voices.toList)
  simp only [State.emitSample_samples, State.emitSample_voices, State.setVoices_samples, State.setVoices_voices,
    State.num_of_exact hexact, mix_exact]
  have habs (x : V) : |1 / 5 * x| = 1 / 5 * |x| := by rw [abs_mul, abs_of_pos (by norm_num : (0 : V) < 1 / 5)]
  refine ⟨_, rfl, ?_, ?_, ?_, fun hfive => ?_⟩
  · linarith [neg_abs_le (voiceOutputs .exact s.cfg.offEarlyExit s.fs s.voices).sum]
  · linarith
  · rw [habs]
    linarith
  · have hfive : ((s.voices.toList.filter fun v => !inState .off v).length : V) ≤ 5 := Nat.cast_le_ofNat.2 hfive
    rw [habs]
    linarith

/-! ## Words executed one after the other (R160) -/

/-- What the words do depends on the pool, `FS` and the parameters only, and writes the pool only. -/
theorem exists_pool_execWords (ws : List CmdWord) (s : State) : ∃ p, ∀ t : State,
    t.voices = s.voices → t.fs = s.fs → t.cfg = s.cfg → execWords ws t = some (t.setVoices p) := by
  induction ws generalizing s with
  | nil => exact ⟨s.voices, fun t hv _ _ => by rw [← hv]; rfl⟩
  | cons w ws ih =>
    obtain ⟨F, hF⟩ := exec_decodeCW w
    obtain ⟨p, hp⟩ := ih (s.setVoices (F s.cfg.num s.cfg.wireAdsr s.fs s.voices))
    refine ⟨p, fun t hv hf hc => ?_⟩
    rw [execWords, hF, hv, hf, hc]
    exact hp _ rfl hf hc

/-- The pool after the words have been executed in this state. -/
def State.poolAfter (s : State) (ws : List CmdWord) : Pool :=
  match execWords ws s with
  | some t => t.voices
  | none => s.voices

theorem execWords_eq (ws : List CmdWord) (s : State) : execWords ws s = some (s.setVoices (s.poolAfter ws)) := by
  obtain ⟨p, hp⟩ := exists_pool_execWords ws s
  have h := hp s rfl rfl rfl
  rw [State.poolAfter, h]
  rfl

theorem State.poolAfter_congr {s t : State} (ws : List CmdWord) (hv : t.voices = s.voices) (hf : t.fs = s.fs)
    (hc : t.cfg = s.cfg) : t.poolAfter ws = s.poolAfter ws := by
  obtain ⟨p, hp⟩ := exists_pool_execWords ws s
  rw [State.poolAfter, State.poolAfter, hp t hv hf hc, hp s rfl rfl rfl]
  rfl

theorem execWords_congr {s t : State} (ws : List CmdWord) (hv : t.voices = s.voices) (hf : t.fs = s.fs)
    (hc : t.cfg = s.cfg) : execWords ws t = some (t.setVoices (s.poolAfter ws)) := by
  rw [execWords_eq, State.poolAfter_congr ws hv hf hc]

theorem exec_decodeCW_eq (w : CmdWord) (s : State) :
    exec (decodeCW w) s = .next (s.setVoices (s.poolAfter [w])) := by
  obtain ⟨F, hF⟩ := exec_decodeCW w
  have h : execWords [w] s = some (s.setVoices (F s.cfg.num s.cfg.wireAdsr s.fs s.voices)) := by rw [execWords, hF]; rfl
  rw [hF, State.poolAfter, h]
  rfl

/-- The words after the first do their work in any state that has its pool. -/
theorem State.poolAfter_cons {s t : State} {w : CmdWord} (ws : List CmdWord) (hv : t.voices = s.poolAfter [w])
    (hf : t.fs = s.fs) (hc : t.cfg = s.cfg) : s.poolAfter (w :: ws) = t.poolAfter ws := by
  have h : execWords (w :: ws) s = execWords ws (s.setVoices (s.poolAfter [w])) := by rw [execWords, exec_decodeCW_eq]
  rw [State.poolAfter_congr ws (s := s.setVoices (s.poolAfter [w])) hv hf hc, State.poolAfter, h, execWords_eq]
  rfl

/-! ## The pop loop (R191) -/

/-- Settles O36: the arm of `DRAIN`. -/
theorem drainStartsPopLoop : Obligations.DrainStartsPopLoop := fun _ => rfl

section Drain
variable {s : State}

/-- On the engine's turn the oldest word is removed and executed, and the words behind it do their work from there. -/
theorem exists_step_pop {w : CmdWord} {q : List CmdWord} (h : s.engineTurn = true) (hc : s.chan = w :: q) :
    ∃ p, step s = .next { s with voices := p, chan := q, inputs := s.afterTurn } ∧ ∀ ws,
      s.poolAfter (w :: ws) =
        ({ s with voices := p, chan := q, inputs := s.afterTurn } : State).poolAfter ws :=
  ⟨({ s with chan := q, inputs := s.afterTurn } : State).poolAfter [w],
    by rw [step_pop s w q h hc, exec_decodeCW_eq]; rfl,
    fun ws => State.poolAfter_cons ws (State.poolAfter_congr [w] rfl rfl rfl) rfl rfl⟩

/-- By induction on the channel: a drain that goes on by itself executes the queued words and ends. -/
theorem steps_drainsAlone (hd : s.draining = true) (ha : s.drainsAlone = true) : steps (s.chan.length + 1) s =
    some { s with voices := s.poolAfter s.chan, chan := [], draining := false } := by
  have hturn := engineTurn_of_drainsAlone s hd ha
  induction hq : s.chan generalizing s with
  | nil =>
    rw [List.length_nil, steps_succ (step_pop_empty s hturn hq), afterTurn_of_drainsAlone s ha, hq]
    rfl
  | cons w q ih =>
    obtain ⟨p, hstep, hpool⟩ := exists_step_pop hturn hq
    rw [afterTurn_of_drainsAlone s ha] at hstep hpool
    rw [List.length_cons, steps_succ hstep, hpool]
    exact ih hd ha hturn rfl

/-- The queued words and those that the schedule pushes are executed in order: a push moves the first pushed word to
the end of the queue, a mark of the engine pops the first queued one, and then the drain goes on by itself. -/
theorem steps_drainSchedule {l rest : List Input} (hd : s.draining = true) (hi : s.inputs = l ++ rest)
    (hl : drainSchedule s.cfg s.chan.length l = true) (ha : ({ s with inputs := rest } : State).drainsAlone = true) :
    steps (s.chan.length + 2 * (pushedWords l).length + 1) s = some { s with
      voices := s.poolAfter (s.chan ++ pushedWords l), chan := [], draining := false, inputs := rest,
      results := pushedResults l s.results } := by
  induction l generalizing s with
  | nil =>
    subst hi
    rw [pushedWords, List.append_nil]
    exact steps_drainsAlone hd ha
  | cons x l ih =>
    have hx : s.pending = x :: (l ++ rest) := s.pending_of_cons _ _ hi
    cases x with
    | push p w =>
      simp only [drainSchedule, Bool.and_eq_true, decide_eq_true_eq] at hl
      obtain ⟨⟨hp, hroom⟩, hl⟩ := hl
      have hstep := (pushAppendsOrAnswersFull s p w _ hp hx).1 hroom
      have hpool (ws : List CmdWord) : s.poolAfter ws = ({ s with
          inputs := l ++ rest, chan := s.chan ++ [w], results := (p, .ok) :: s.results } : State).poolAfter ws :=
        State.poolAfter_congr ws rfl rfl rfl
      have hwords : s.chan ++ pushedWords (.push p w :: l) = s.chan ++ [w] ++ pushedWords l := by
        simp [pushedWords]
      have hcount : s.chan.length + 2 * (pushedWords (.push p w :: l)).length + 1 =
          (s.chan ++ [w]).length + 2 * (pushedWords l).length + 1 + 1 := by
        simp only [pushedWords, List.length_cons, List.length_append, List.length_nil]
        omega
      rw [hcount, steps_succ hstep, hwords, hpool]
      exact ih hd rfl (by simpa using hl) ha
    | engine =>
      have hturn : s.engineTurn = true := (engineTurn_iff s).2 ⟨hd, by simp [hx, Input.byProducer]⟩
      have hafter : s.afterTurn = l ++ rest := by rw [State.afterTurn, hx]
      cases hq : s.chan with
      | nil => simp [hq, drainSchedule] at hl
      | cons w q =>
        rw [hq] at hl
        obtain ⟨p, hstep, hpool⟩ := exists_step_pop hturn hq
        rw [hafter] at hstep hpool
        have hcount : (w :: q).length + 2 * (pushedWords (.engine :: l)).length + 1 =
            q.length + 2 * (pushedWords l).length + 1 + 1 := by
          simp only [pushedWords, List.length_cons]
          omega
        rw [hcount, steps_succ hstep, List.cons_append, hpool]
        exact ih hd rfl hl ha
    | midi | request | reset => simp [drainSchedule] at hl

/-- A `DRAIN` request to a free engine: its own step, one for each word, and the pop that finds the channel empty. -/
theorem steps_request_drain {rest : List Input} (hd : s.draining = false) (hp : s.pending = .request 1 :: rest)
    (ha : ({ s with inputs := rest } : State).drainsAlone = true) : steps (s.chan.length + 2) s =
      some { s with voices := s.poolAfter s.chan, chan := [], draining := false, inputs := rest } := by
  have hpool : s.poolAfter s.chan = ({ s with inputs := rest, draining := true } : State).poolAfter s.chan :=
    State.poolAfter_congr _ rfl rfl rfl
  have hstep : step s = .next { s with inputs := rest, draining := true } := step_request hd hp
  rw [steps_succ hstep, hpool]
  exact steps_drainsAlone (s := { s with inputs := rest, draining := true }) rfl ha

end Drain

/-- Settles O37: the words executed alone and the drain write the same pool. -/
theorem drainExecutesQueueInOrder : Obligations.DrainExecutesQueueInOrder := fun s _ hd hp ha =>
  ⟨_, execWords_congr (s := s) _ rfl rfl rfl, steps_request_drain hd hp ha, rfl⟩

/-- Settles O38: as for O37, with the drain of `steps_drainSchedule`. -/
theorem wordPushedDuringDrainIsExecutedInIt : Obligations.WordPushedDuringDrainIsExecutedInIt :=
  fun s _ _ hd hi hl ha => ⟨_, execWords_congr (s := s) _ rfl rfl rfl, steps_drainSchedule hd hi hl ha, rfl⟩

/-! ## The output buffer (R192) -/

theorem steps_add (m n : Nat) (s : State) : steps (m + n) s = (steps m s).bind (steps n) := by
  induction m generalizing s with
  | zero => rw [Nat.zero_add]; rfl
  | succ m ih =>
    rw [Nat.add_right_comm, steps, steps]
    cases step s with
    | next t => exact ih t
    | fault f => rfl
    | refused r => rfl

/-- Each of the `n` requests of a free engine is used up and adds one sample. -/
theorem exists_steps_tickTimes {n : Nat} {s : State} (hd : s.draining = false) (hi : s.inputs = tickTimes n) :
    ∃ u l, steps n s = some u ∧ u.inputs = [] ∧ u.chan = s.chan ∧ u.draining = false ∧
      u.samples = l ++ s.samples ∧ l.length = n := by
  induction n generalizing s with
  | zero => exact ⟨s, [], rfl, hi, rfl, hd, rfl, rfl⟩
  | succ n ih =>
    obtain ⟨u, l, hsteps, hinputs, hchan, hfree, hsamples, hlength⟩ :=
      ih (s := (s.setInputs (tickTimes n)).ticked) hd rfl
    refine ⟨u, l ++ [mix s.num (voiceOutputs s.num s.cfg.offEarlyExit s.fs s.voices)], ?_, hinputs, hchan, hfree,
      ?_, ?_⟩
    · exact (steps_succ (step_tick hd hi) n).trans hsteps
    · rw [hsamples, List.append_assoc]
      rfl
    · rw [List.length_append, hlength]
      rfl

/-- Settles O52: the drain of the request (`steps_request_drain`), and then the `n` samples. -/
theorem bufferDrainsThenDeliversSamples : Obligations.BufferDrainsThenDeliversSamples := by
  intro s n hd hi ha
  have hdrain := steps_request_drain hd (s.pending_of_cons _ _ hi) ha
  obtain ⟨u, l, hsteps, hinputs, hchan, hfree, hsamples, hlength⟩ := exists_steps_tickTimes (n := n)
    (s := { s with voices := s.poolAfter s.chan, chan := [], draining := false, inputs := tickTimes n }) rfl rfl
  refine ⟨_, u, l, execWords_congr (s := s) _ rfl rfl rfl, hdrain, rfl, rfl, rfl, hsteps, ?_, hinputs, hchan, hfree,
    hsamples, hlength⟩
  rw [steps_add, hdrain]
  exact hsteps

/-! ## The drain that never ends (R191 corner (c), R241) -/

/-- What a run of the schedule push, pop, push, pop, ... keeps: before a pop the channel is not empty. -/
structure EndlessDrain (p : Nat) (w : CmdWord) (s : State) : Prop where
  draining : s.draining = true
  repeats : s.repeats = [.push p w, .engine]
  producer : p < s.cfg.nProd
  capacity : s.cfg.chCap ≠ some 0
  turn : s.inputs = [] ∨ s.inputs = [.engine] ∧ s.chan ≠ []

/-- With a positive capacity the channel holds a word after a push, be the answer `ok` or `full` (R61). -/
theorem chPush_ne_nil {cap : Option Nat} (hcap : cap ≠ some 0) (q : List CmdWord) (w : CmdWord) :
    (chPush cap q w).2 ≠ [] := by
  rcases chPush_eq cap q w with ⟨e, -⟩ | ⟨e, hfull⟩ <;> rw [e]
  · simp
  · obtain ⟨n, rfl, hn⟩ := (hasRoom_eq_false_iff cap q).1 hfull
    rintro rfl
    exact hcap (congrArg some (Nat.le_zero.1 hn))

theorem EndlessDrain.exists_step {p : Nat} {w : CmdWord} {s : State} (hs : EndlessDrain p w s) :
    ∃ t, step s = .next t ∧ EndlessDrain p w t := by
  obtain ⟨hd, hr, hp, hcap, hi | ⟨hi, hc⟩⟩ := hs
  · have hx : s.pending = [.push p w, .engine] := (s.pending_of_nil hi).trans hr
    exact ⟨_, step_push s p w _ hp hx, hd, hr, hp, hcap, .inr ⟨rfl, chPush_ne_nil hcap s.chan w⟩⟩
  · have hx : s.pending = [.engine] := s.pending_of_cons _ _ hi
    have hturn : s.engineTurn = true := (engineTurn_iff s).2 ⟨hd, by simp [hx, Input.byProducer]⟩
    obtain ⟨w', q, hq⟩ := List.exists_cons_of_ne_nil hc
    obtain ⟨pool, hstep, -⟩ := exists_step_pop hturn hq
    exact ⟨_, hstep, hd, hr, hp, hcap, .inl (by rw [State.afterTurn, hx])⟩

theorem EndlessDrain.exists_steps {p : Nat} {w : CmdWord} {s : State} (hs : EndlessDrain p w s) (k : Nat) :
    ∃ t, steps k s = some t ∧ EndlessDrain p w t := by
  induction k generalizing s with
  | zero => exact ⟨s, rfl, hs⟩
  | succ k ih =>
    obtain ⟨t, hstep, ht⟩ := hs.exists_step
    rw [steps_succ hstep]
    exact ih ht

/-- Settles O54: every step of the run keeps `EndlessDrain`. -/
theorem endlessPushesKeepDrainOpen : Obligations.EndlessPushesKeepDrainOpen := by
  intro s p w hd hi hr hp hcap k
  obtain ⟨t, hsteps, ht⟩ := EndlessDrain.exists_steps ⟨hd, hr, hp, hcap, .inl hi⟩ k
  exact ⟨t, hsteps, ht.draining⟩

end Sys2Proof.Machine

/-! PROOFS. The family of spec/43_midi_frontend.md: the command word that a message yields, or none (R210 to R214), and
the payloads of `NOTE_FREQ` (R215). -/

namespace Sys2Proof.Machine

/-! ## Which messages yield no event (R214) -/

theorem extractLsb'_msb {w : Nat} (x : BitVec w) (i k : Nat) : (x.extractLsb' i (k + 1)).msb = x.getLsbD (i + k) := by
  simp [BitVec.msb_eq_getLsbD_last]

/-- A message is rejected for bit 7 of a data byte or for its status nibble, and for nothing else. -/
theorem exists_decodeMidi_eq_error_iff (m : MidiMsg) : (∃ e, decodeMidi m = .error e) ↔
    m.getLsbD 15 = true ∨ m.getLsbD 7 = true ∨
      (m.extractLsb' 20 4 ≠ 0x8 ∧ m.extractLsb' 20 4 ≠ 0x9 ∧ m.extractLsb' 20 4 ≠ 0xB) := by
  have h15 : (m.extractLsb' 8 8).msb = m.getLsbD 15 := extractLsb'_msb m 8 7
  have h7 : (m.extractLsb' 0 8).msb = m.getLsbD 7 := extractLsb'_msb m 0 7
  simp only [decodeMidi, h15, h7, ← or_assoc]
  split_ifs with hdata h9 h8 hB
  · exact iff_of_true ⟨_, rfl⟩ (.inl hdata)
  · exact iff_of_false nofun (not_or.2 ⟨hdata, fun h => h.2.1 h9⟩)
  · exact iff_of_false nofun (not_or.2 ⟨hdata, fun h => h.1 h8⟩)
  · exact iff_of_false nofun (not_or.2 ⟨hdata, fun h => h.2.2 hB⟩)
  · exact iff_of_true ⟨_, rfl⟩ (.inr ⟨h8, h9, hB⟩)

/-- The front end yields no command exactly for the messages that its decoder rejects (R210). -/
theorem midiToCmd_eq_none_iff (m : MidiMsg) : midiToCmd m = none ↔ ∃ e, decodeMidi m = .error e := by
  cases hm : decodeMidi m with
  | error e => simp [midiToCmd, hm]
  | ok i =>
    obtain ⟨w, hw, -⟩ := exec_of_decodeMidi hm
    simp [hw]

/-- The words that a front end pushes (R211 to R213). -/
theorem midiToCmd_cases {m : MidiMsg} {w : CmdWord} (h : midiToCmd m = some w) :
    (∃ n, w = noteOnWord n (noteFreq n)) ∨ (∃ n, w = noteOffWord n) ∨ ∃ c v, w = controlChangeWord c v := by
  unfold midiToCmd at h
  split at h
  · next n vel _ =>
    cases h
    rw [midiNoteOnCmd]
    split
    · exact .inl ⟨n, rfl⟩
    · exact .inr (.inl ⟨n, rfl⟩)
  · cases h
    exact .inr (.inl ⟨_, rfl⟩)
  · cases h
    exact .inr (.inr ⟨_, _, rfl⟩)
  · cases h

/-- Settles O8: no command means a rejected message, which a step takes off the schedule (`step_midi_of_error`), and
each word that is pushed decodes to its command. -/
theorem unmappedMidiYieldsNoEvent : Obligations.UnmappedMidiYieldsNoEvent := by
  refine fun m => ⟨(midiToCmd_eq_none_iff m).trans (exists_decodeMidi_eq_error_iff m), ?_, ?_⟩
  · intro hnone s p rest hp hs
    obtain ⟨e, he⟩ := (midiToCmd_eq_none_iff m).1 hnone
    exact step_midi_of_error hp hs he
  · intro w hw
    rcases midiToCmd_cases hw with ⟨n, rfl⟩ | ⟨n, rfl⟩ | ⟨c, v, rfl⟩
    · exact .inl ⟨n, _, decodeCW_noteOnWord n _⟩
    · exact .inr (.inl ⟨n, decodeCW_noteOffWord n⟩)
    · exact .inr (.inr ⟨c, v, decodeCW_controlChangeWord c v⟩)

/-! ## What each form pushes (R211 to R213) -/

theorem midiNoteOnCmd_of_ne_zero (n : BitVec 7) {vel : BitVec 7} (h : vel ≠ 0) :
    midiNoteOnCmd n vel = noteOnWord n (noteFreq n) := if_pos h

theorem midiNoteOnCmd_zero (n : BitVec 7) : midiNoteOnCmd n 0 = noteOffWord n := rfl

theorem exec_midiNoteOn (ch : BitVec 4) (n vel : BitVec 7) (s : State) :
    exec (.midiNoteOn ch n vel) s = .next (s.pushWord s.producer (midiNoteOnCmd n vel)) := rfl

/-- Settles O43: the word of each form, which decodes to its command, and the two results of a push. -/
theorem midiFormsPushOneCommand : Obligations.MidiFormsPushOneCommand := by
  intro ch n x s
  refine ⟨fun hx => ⟨noteOnWord n (noteFreq n), ?_, decodeCW_noteOnWord n _, ?_⟩,
    ⟨noteOffWord n, rfl, decodeCW_noteOffWord n, ?_, rfl⟩,
    ⟨controlChangeWord n x, rfl, decodeCW_controlChangeWord n x, rfl⟩,
    fun w hroom => pushWord_of_hasRoom _ w ((hasRoom_iff _ _).2 hroom),
    fun w hfull => pushWord_of_full _ w ((hasRoom_eq_false_iff _ _).2 hfull)⟩
  · rw [encode, unwire_wire]
  · rw [exec_midiNoteOn, midiNoteOnCmd_of_ne_zero n hx]
  · rw [exec_midiNoteOn, midiNoteOnCmd_zero]

/-! ## The payloads of `NOTE_FREQ` (R215) -/

/-- In units of half a step, `440 · 2^((n−69)/12)` is `57671680 · 2^((n−69)/12)`. Its twelfth power, times `2^69`, is an
integer, and so lies between those of `2k - 1` and `2k + 1` for the payload `k`. -/
theorem noteFreq_pow_bounds (n : BitVec 7) : 0 < (noteFreq n).toInt ∧
    (2 * (noteFreq n).toInt - 1) ^ 12 * 2 ^ 69 < 57671680 ^ 12 * 2 ^ n.toNat ∧
    57671680 ^ 12 * 2 ^ n.toNat < (2 * (noteFreq n).toInt + 1) ^ 12 * 2 ^ 69 := by
  revert n
  decide +kernel

/-- Twelve semitones are an octave. -/
theorem semitones_pow (n : Nat) : ((2 : ℝ) ^ (((n : ℝ) - 69) / 12)) ^ 12 * 2 ^ 69 = 2 ^ n := by
  have htwelve : ((2 : ℝ) ^ (((n : ℝ) - 69) / 12)) ^ 12 = 2 ^ ((n : ℝ) - 69) := by
    rw [← Real.rpow_mul_natCast zero_le_two, Nat.cast_ofNat, div_mul_cancel₀ _ (by norm_num)]
  have hoctaves : (2 : ℝ) ^ (69 : ℝ) = 2 ^ 69 := mod_cast Real.rpow_natCast 2 69
  rw [htwelve, ← hoctaves, ← Real.rpow_add two_pos, sub_add_cancel, Real.rpow_natCast]

theorem lt_of_pow_mul_lt {a b c : ℝ} {n : Nat} (hb : 0 ≤ b) (hc : 0 ≤ c) (h : a ^ n * c < b ^ n * c) : a < b :=
  lt_of_pow_lt_pow_left₀ n hb (lt_of_mul_lt_mul_right h hc)

/-- Settles O44: between positive numbers the order is that of their twelfth powers (`noteFreq_pow_bounds`). -/
theorem noteFreqIsNearestToFormula : Obligations.NoteFreqIsNearestToFormula := by
  intro n
  obtain ⟨hpos, hlo, hhi⟩ := noteFreq_pow_bounds n
  have hpow := semitones_pow n.toNat
  set k := (noteFreq n).toInt
  set y : ℝ := 2 ^ (((n.toNat : ℝ) - 69) / 12)
  have hy : 0 ≤ y := Real.rpow_nonneg zero_le_two _
  have hk : (0 : ℝ) < k := Int.cast_pos.2 hpos
  have hscaled : (57671680 * y) ^ 12 * 2 ^ 69 = 57671680 ^ 12 * 2 ^ n.toNat := by rw [mul_pow, mul_assoc, hpow]
  have hlower : 2 * (k : ℝ) - 1 < 57671680 * y :=
    lt_of_pow_mul_lt (n := 12) (c := 2 ^ 69) (by positivity) (by positivity) (by rw [hscaled]; exact_mod_cast hlo)
  have hupper : 57671680 * y < 2 * (k : ℝ) + 1 :=
    lt_of_pow_mul_lt (n := 12) (c := 2 ^ 69) (by positivity) (by positivity) (by rw [hscaled]; exact_mod_cast hhi)
  have hwire : ((wire (noteFreq n) : V) : ℝ) = (k : ℝ) / 65536 := by rw [wire]; push_cast; rfl
  rw [hwire, abs_lt]
  constructor <;> linarith

end Sys2Proof.Machine

/-! PROOFS. The family of spec/60_exceptions.md: every admitted step completes (R230), and what a `RESET` refuses
(R241). -/

namespace Sys2Proof.Machine

/-! ## What a `RESET` refuses (R241) -/

theorem exec_reset_of_nonpos (s : State) {fs : V} (h : fs ≤ 0) :
    exec (.reset fs) s = .refused .sampleRateNotPositive := if_pos h

theorem exec_reset_of_not_representable {fs : V} {s : State} (hfs : 0 < fs) (h : representable s.cfg fs = false) :
    exec (.reset fs) s = .refused .notRepresentable := by
  simp [exec, execReset, not_le.2 hfs, h]

theorem representable_eq_false_iff (c : Config) (fs : V) : representable c fs = false ↔
    (numOps c.num).mem fs = false ∨ (numOps c.num).mem c.modWheelReset = false ∨
      (numOps c.num).mem c.lfoFreqReset = false := by
  simp only [representable, Bool.and_eq_false_iff, or_assoc]

/-! ## Every admitted step completes (R230, R241) -/

/-- A `TICK` or `DRAIN` request always completes (R190, R191). -/
theorem exec_decodeRQ_completes (rq : BitVec 1) (s : State) : ∃ t, exec (decodeRQ rq) s = .next t := by
  unfold decodeRQ
  split
  · exact ⟨_, exec_tick s⟩
  · exact ⟨_, drainStartsPopLoop s⟩

/-- An iteration of the pop loop always completes (R191). -/
theorem step_engineTurn_completes {s : State} (h : s.engineTurn = true) : ∃ t, step s = .next t := by
  cases hc : s.chan with
  | nil => exact ⟨_, step_pop_empty s h hc⟩
  | cons w q =>
    obtain ⟨p, hp, -⟩ := exists_step_pop h hc
    exact ⟨_, hp⟩

/-- With nothing scheduled and no drain in progress, the block stays as it is. -/
theorem step_idle {s : State} (hd : s.draining = false) (h : s.pending = []) : step s = .next s := by
  simp [step, fetch, h, hd]

/-- Outside a drain the engine's mark is only taken off the schedule. -/
theorem step_engine_idle {s : State} {rest : List Input} (hd : s.draining = false) (h : s.pending = .engine :: rest) :
    step s = .next (s.setInputs rest) := by
  simp [step, fetch, h, hd]

/-- During a drain the step is a pop or a producer's (`engineTurn_or_byProducer`); outside a drain, each head of the
schedule has its own lemma. -/
theorem step_completes_of_admitted {s : State} (h : ∀ x ∈ s.pending.head?, x.admitted s.cfg = true) :
    ∃ t, step s = .next t := by
  cases hd : s.draining with
  | true =>
    rcases engineTurn_or_byProducer hd with hturn | ⟨x, hx, hproducer⟩
    · exact step_engineTurn_completes hturn
    · obtain ⟨rest, hpending⟩ := List.head?_eq_some_iff.1 hx
      exact step_producer_completes hpending hproducer (h x hx)
  | false =>
    cases hp : s.pending with
    | nil => exact ⟨s, step_idle hd hp⟩
    | cons x rest =>
      have hadm : x.admitted s.cfg = true := h x (by simp [hp])
      cases x with
      | push | midi => exact step_producer_completes hp rfl hadm
      | request rq =>
        rw [step_request hd hp]
        exact exec_decodeRQ_completes rq _
      | reset fs =>
        obtain ⟨hfs, hmem⟩ : 0 < fs ∧ representable s.cfg fs = true := by simpa [Input.admitted] using hadm
        rw [step_reset hd hp]
        exact ⟨_, exec_reset hfs hmem⟩
      | engine => exact ⟨_, step_engine_idle hd hp⟩

/-- Settles O11: `step_completes_of_admitted`, the three outcomes of a launch, and that `Fault` has no value (R230). -/
theorem everyAdmittedStepCompletes : Obligations.EveryAdmittedStepCompletes := by
  refine ⟨fun _ => step_completes_of_admitted, fun s _ => exec_reset_of_nonpos s, fun s fs hfs => ?_,
    fun s fs hexact => ?_, fun _ _ f => nomatch f⟩
  · cases hmem : representable s.cfg fs with
    | true =>
      obtain ⟨hrate, hwheel, hlfo⟩ := (representable_iff _ _).1 hmem
      exact .inl ⟨hrate, hwheel, hlfo, _, exec_reset hfs hmem⟩
    | false =>
      exact .inr ⟨(representable_eq_false_iff _ _).1 hmem, exec_reset_of_not_representable hfs hmem⟩
  · rw [State.num_of_exact hexact]
    rfl

end Sys2Proof.Machine

/-! PROOFS. The family of spec/70_reset_and_hazards.md: the first sample of a note (R271), and the end of a drain during
which producers push only finitely many words (R264). -/

namespace Sys2Proof.Machine

/-! ## The first sample of a note (R271) -/

/-- The envelope step comes before the output (R136): a silent voice that has just entered `Attack` sounds with one
step of the ramp, in either setting of `P_OFF_EARLY_EXIT`. -/
theorem renderVoice_attack_of_silent {N : NumOps} {v : Voice} (hN : N.Lawful) (hv : v.state = .attack)
    (hamp : v.amp = 0) (hmem : N.mem v.attackRate = true) (hlt : v.attackRate < 1) (early : Bool) (fs : V) :
    renderVoice N early fs v = renderTail N fs { v with amp := v.attackRate } := by
  have hadd : N.add v.amp v.attackRate = v.attackRate := by rw [hamp, hN.zero_add _ hmem]
  have hstep : envStep N v = { v with amp := v.attackRate } := by
    rw [envStep_attack_of_lt_one hv (by rwa [hadd]), hadd]
  have hstate : (envStep N v).state = .attack := by rw [hstep, hv]
  rw [renderVoice_of_no_exit fs (by simp [hv]) (by simp [hstate]), hstep]

theorem State.get_ticked (s : State) (i : VoiceIx) :
    s.ticked.voices.get i = (renderVoice s.num s.cfg.offEarlyExit s.fs (s.voices.get i)).2 :=
  Pool.get_map _ _ _

/-- Settles O16: the first `Off` voice is selected (R171), silent by R38, and rendered as a silent voice in `Attack`. -/
theorem firstSampleOfNote : Obligations.FirstSampleOfNote := by
  intro n f s i ⟨_, _, _, hok, _, _⟩ hrep hoff hfirst hlt
  obtain ⟨-, -, hsilent⟩ := hok i
  have hsel : selectOn s.voices = some i := (selectOn_eq_some _ _).2 (.inl ⟨hoff, hfirst⟩)
  obtain ⟨t, ht⟩ : ∃ t, t = s.updateVoice i (voiceNoteOn n (s.num.ofWire f)) := ⟨_, rfl⟩
  have hrender : renderVoice t.num t.cfg.offEarlyExit t.fs (t.voices.get i) =
      renderTail s.num s.fs { t.voices.get i with amp := (s.voices.get i).attackRate } := by
    have hvoice := (s.get_updateVoice i (voiceNoteOn n (s.num.ofWire f))).1
    rw [ht, hvoice]
    exact renderVoice_attack_of_silent (v := voiceNoteOn n _ (s.voices.get i)) s.num_lawful rfl (hsilent hoff)
      (hrep _ (by simp [voiceNoteOn])) hlt _ _
  refine ⟨t, t.ticked, ht ▸ exec_noteOn_of_selected f hsel, exec_tick t, ?_, ?_, ?_⟩
  · rw [t.get_ticked, hrender]
    rfl
  · rw [t.get_ticked, hrender]
    simp [renderTail, ht, voiceNoteOn]
  · rw [hrender]
    simp [renderTail, waveform, ht, voiceNoteOn]

/-! ## A drain under finitely many pushes (R264) -/

/-- A drain in which all producers that still act exist and none acts in what comes round for ever. -/
structure FiniteDrain (s : State) : Prop where
  draining : s.draining = true
  admitted : ∀ x ∈ s.inputs, x.byProducer = true → x.admitted s.cfg = true
  repeats : ∀ x ∈ s.repeats, x.byProducer = false

/-- How many steps a `FiniteDrain` can take before the empty pop: one for each queued word, and two for each producer's
action still to come, its own step and the pop of the word it may push. -/
def State.drainBound (s : State) : Nat := s.chan.length + 2 * (s.inputs.filter Input.byProducer).length

/-- The engine's turn uses up no producer's action. -/
theorem filter_byProducer_afterTurn {s : State} (hr : ∀ x ∈ s.repeats, x.byProducer = false) :
    s.afterTurn.filter Input.byProducer = s.inputs.filter Input.byProducer := by
  cases hi : s.inputs with
  | nil =>
    have hp := s.pending_of_nil hi
    cases hrep : s.repeats with
    | nil => rw [State.afterTurn, hp, hrep, hi]
    | cons x l =>
      rw [hrep] at hp hr
      cases x with
      | engine =>
        obtain ⟨-, hl⟩ := List.forall_mem_cons.1 hr
        simpa [State.afterTurn, hp] using hl
      | push | midi | request | reset => rw [State.afterTurn, hp, hi]
  | cons x l =>
    have hp := s.pending_of_cons x l hi
    cases x <;> simp [State.afterTurn, hp, hi, Input.byProducer]

section FiniteDrain
variable {s : State}

/-- A producer's action comes from the finite part of the schedule. -/
theorem FiniteDrain.exists_inputs_eq (hs : FiniteDrain s) {x : Input} (hx : x ∈ s.pending.head?)
    (hp : x.byProducer = true) : ∃ rest, s.inputs = x :: rest := by
  cases hi : s.inputs with
  | nil =>
    rw [s.pending_of_nil hi] at hx
    have hno := hs.repeats x (List.mem_of_mem_head? hx)
    simp [hno] at hp
  | cons y rest =>
    obtain rfl : y = x := by simpa [s.pending_of_cons y rest hi] using hx
    exact ⟨rest, rfl⟩

/-- A producer's step replaces its action, which counts two, by one queued word at most. -/
theorem FiniteDrain.step_producer (hs : FiniteDrain s) {x : Input} {rest : List Input} (hi : s.inputs = x :: rest)
    (hp : x.byProducer = true) : ∃ t, step s = .next t ∧ FiniteDrain t ∧ t.drainBound < s.drainBound := by
  have hpending := s.pending_of_cons _ _ hi
  obtain ⟨hx, hrest⟩ := List.forall_mem_cons.1 (hi ▸ hs.admitted)
  obtain ⟨t, ht⟩ := step_producer_completes hpending hp (hx hp)
  obtain ⟨-, -, -, hdraining, hcfg, hinputs, hrepeats, hchan⟩ :=
    producersTouchOnlyTheChannel s t ⟨x, by simp [hpending], hp⟩ ht
  rw [hpending, List.tail_cons] at hinputs
  have hlen : t.chan.length ≤ s.chan.length + 1 := by
    rcases hchan with e | ⟨w, e⟩ <;> simp [e]
  refine ⟨t, ht, ⟨hdraining.trans hs.draining, ?_, hrepeats ▸ hs.repeats⟩, ?_⟩
  · rw [hinputs, hcfg]
    exact hrest
  · rw [State.drainBound, State.drainBound, hinputs, hi, List.filter_cons_of_pos hp, List.length_cons]
    omega

/-- A pop that finds a word removes it and leaves the producers' actions. -/
theorem FiniteDrain.step_pop (hs : FiniteDrain s) (hturn : s.engineTurn = true) {w : CmdWord} {q : List CmdWord}
    (hc : s.chan = w :: q) : ∃ t, step s = .next t ∧ FiniteDrain t ∧ t.drainBound < s.drainBound := by
  have hfilter := filter_byProducer_afterTurn hs.repeats
  obtain ⟨p, hstep, -⟩ := exists_step_pop hturn hc
  refine ⟨_, hstep, ⟨hs.draining, fun x hx hp => ?_, hs.repeats⟩, ?_⟩
  · have hmem : x ∈ s.inputs.filter Input.byProducer := hfilter ▸ List.mem_filter.2 ⟨hx, hp⟩
    exact hs.admitted x (List.mem_of_mem_filter hmem) hp
  · simp only [State.drainBound, hfilter, hc, List.length_cons]
    omega

/-- During a drain the step is the engine's or a producer's, and only the empty pop does not lower `drainBound`. -/
theorem FiniteDrain.exists_step (hs : FiniteDrain s) : ∃ t, step s = .next t ∧
    ((t.draining = false ∧ t.chan = []) ∨ (FiniteDrain t ∧ t.drainBound < s.drainBound)) := by
  rcases engineTurn_or_byProducer hs.draining with hturn | ⟨x, hx, hp⟩
  · cases hc : s.chan with
    | nil => exact ⟨_, step_pop_empty s hturn hc, .inl ⟨rfl, hc⟩⟩
    | cons w q =>
      obtain ⟨t, hstep, ht⟩ := hs.step_pop hturn hc
      exact ⟨t, hstep, .inr ht⟩
  · obtain ⟨rest, hi⟩ := hs.exists_inputs_eq hx hp
    obtain ⟨t, hstep, ht⟩ := hs.step_producer hi hp
    exact ⟨t, hstep, .inr ht⟩

/-- By induction on a bound of `drainBound`. -/
theorem FiniteDrain.exists_steps {n : Nat} (hs : FiniteDrain s) (hn : s.drainBound ≤ n) :
    ∃ k t, k ≤ n + 1 ∧ steps k s = some t ∧ t.draining = false ∧ t.chan = [] := by
  induction n generalizing s with
  | zero =>
    obtain ⟨t, hstep, ht | ⟨-, hlt⟩⟩ := hs.exists_step
    · exact ⟨1, t, le_rfl, steps_succ hstep 0, ht⟩
    · omega
  | succ n ih =>
    obtain ⟨t, hstep, ht | ⟨ht, hlt⟩⟩ := hs.exists_step
    · exact ⟨1, t, by omega, steps_succ hstep 0, ht⟩
    · obtain ⟨k, u, hk, hsteps, hu⟩ := ih ht (by omega)
      exact ⟨k + 1, u, by omega, (steps_succ hstep k).trans hsteps, hu⟩

end FiniteDrain

/-- Settles O53: `drainBound` falls at every step before the empty pop. -/
theorem drainEndsUnderFinitelyManyPushes : Obligations.DrainEndsUnderFinitelyManyPushes := fun _ hd hadm hr =>
  FiniteDrain.exists_steps ⟨hd, hadm, hr⟩ le_rfl

end Sys2Proof.Machine
